-- ==== Sys2Proof/Word.lean ====
section
/-! DEFINITION. The bit vectors of the register bus (spec/00_scope.md R7, R9): one byte of the frame, one 32-bit
register, one byte offset in the 256-byte window, one 41-bit transaction word (spec/30_encoding.md R80). -/

namespace Sys2Proof

/-- One byte of the sensor's frame (R87). -/
abbrev Byte := BitVec 8

/-- A register and the bus data: REG_WIDTH = 32 (R7, R62). -/
abbrev Word := BitVec 32

/-- A byte offset in the register window: ADDR_WIDTH = 8 (R7, R60). -/
abbrev Offset := BitVec 8

/-- A transaction word: `we` is bit 40, `addr` bits 39:32, `wdata` bits 31:0 (R80). -/
abbrev TransactionWord := BitVec 41

end Sys2Proof
end

