-- ==== Sys2Proof/Config.lean ====
section
/-! DEFINITION. What is fixed for the block (spec/00_scope.md R7), the reset values of the six protocol parameters
(R40 to R45), the open parameters O1 to O5 (R8), and the free values of the two inputs that the spec leaves to the
sensor and to the tick source (R21, R23). -/

namespace Sys2Proof.Config

/-- TICK_CAP (R7): a window whose count reaches this value ends capture. -/
def tickCap : BitVec 8 := 255#8
/-- PREAMBLE_WINDOWS (R7): windows 0 to 3 are never sampled. -/
def preambleWindows : BitVec 8 := 4#8
/-- FRAME_BITS (R7): bits of a whole frame. -/
def frameBits : BitVec 6 := 40#6
/-- The constant that the ID register reads (R27). -/
def idValue : Word := 0x44485431#32

/-- Reset value of T_START_LOW (R40). -/
def resetTStartLow : BitVec 24 := 18000#24
/-- Reset value of T_START_HIGH (R41). -/
def resetTStartHigh : BitVec 16 := 40#16
/-- Reset value of MAX_WINDOWS (R42). -/
def resetMaxWindows : BitVec 8 := 85#8
/-- Reset value of BIT_THRESHOLD (R43). -/
def resetBitThreshold : BitVec 8 := 16#8
/-- Reset value of RETRY_BOUND (R44). -/
def resetRetryBound : BitVec 8 := 5#8
/-- Reset value of T_SETTLE (R45). -/
def resetTSettle : BitVec 24 := 100000#24

/-- `P_TICK_NS` (R8, O1): the period of `tick_i` in nanoseconds. Open: no rule of the machine reads it (log 16). -/
opaque pTickNs : Nat
/-- The default the spec gives for `P_TICK_NS` (R8). -/
def pTickNsDefault : Nat := 1000
/-- `P_CLK_HZ` (R8, O2): the frequency of `clk`. Open (log 16). -/
opaque pClkHz : Nat
/-- `P_BASE_ADDR` (R61, O3): where the host maps the window. Open (log 16). -/
opaque pBaseAddr : Nat
/-- `P_SENSOR_WARMUP` (R264, O4): a host duty. Open (log 16). -/
opaque pSensorWarmup : Nat
/-- `P_QUIET` (R267, O5): a host duty. Open (log 16). -/
opaque pQuiet : Nat

/-- The level of `tick_i` in the n-th cycle when State lists no input for it: a free value (R23, D3; log 2). -/
opaque freeTick : Nat → Bool
/-- The level of `dq_i` in the n-th cycle when State lists no input for it: a free value (R21, D34; log 2). -/
opaque freeDq : Nat → Bool

end Sys2Proof.Config
end

