-- ==== Sys2Proof/Syntax.lean ====
section
/-! DEFINITION. The operations of spec/opcode_table.json, one constructor a row, each with the fields of the row's
format (spec/30_encoding.md R80): BUS carries `addr` and `wdata`, CMD carries `addr`, the ignored bits 31:4 and, where
the row stands for several codes, `code`. The ignored bits are kept, so that a transaction word is told from every
other (log 14). And the register names of the map (spec/10_state.md R26). -/

namespace Sys2Proof

/-- The 13 registers of the register map (R26). -/
inductive Reg where
  | id | ctrl | cmd | status
  | tStartLow | tStartHigh | maxWindows | bitThreshold | retryBound | tSettle
  | rawLo | rawHi | reading
  deriving DecidableEq, Repr

/-- One operation of the block: a register bus transaction (R80, R89). -/
inductive Instr where
  /-- RD (R100). -/
  | rd (addr : Offset) (wdata : Word)
  /-- WR_CTRL (R102). -/
  | wrCtrl (addr : Offset) (wdata : Word)
  /-- CMD_NOP (R106). -/
  | cmdNop (addr : Offset) (ignored : BitVec 28)
  /-- CMD_ACQUIRE (R107). -/
  | cmdAcquire (addr : Offset) (ignored : BitVec 28)
  /-- CMD_DECODE (R108). -/
  | cmdDecode (addr : Offset) (ignored : BitVec 28)
  /-- CMD_RESERVED, code 0x3 (R109). -/
  | cmdReserved3 (addr : Offset) (ignored : BitVec 28)
  /-- CMD_RESERVED, codes 0x4 to 0x7 (R109). -/
  | cmdReserved4To7 (addr : Offset) (ignored : BitVec 28) (code : BitVec 4)
  /-- CMD_RESERVED, codes 0x8 to 0xF (R109). -/
  | cmdReserved8ToF (addr : Offset) (ignored : BitVec 28) (code : BitVec 4)
  /-- WR_STATUS (R103). -/
  | wrStatus (addr : Offset) (wdata : Word)
  /-- WR_PARAM T_START_LOW (R104, R40). -/
  | wrParamTStartLow (addr : Offset) (wdata : Word)
  /-- WR_PARAM T_START_HIGH (R104, R41). -/
  | wrParamTStartHigh (addr : Offset) (wdata : Word)
  /-- WR_PARAM MAX_WINDOWS (R104, R42). -/
  | wrParamMaxWindows (addr : Offset) (wdata : Word)
  /-- WR_PARAM BIT_THRESHOLD (R104, R43). -/
  | wrParamBitThreshold (addr : Offset) (wdata : Word)
  /-- WR_PARAM RETRY_BOUND (R104, R44). -/
  | wrParamRetryBound (addr : Offset) (wdata : Word)
  /-- WR_PARAM T_SETTLE (R104, R45). -/
  | wrParamTSettle (addr : Offset) (wdata : Word)
  /-- WR_IGNORED ID (R105). -/
  | wrIgnoredId (addr : Offset) (wdata : Word)
  /-- WR_IGNORED RAW_LO (R105). -/
  | wrIgnoredRawLo (addr : Offset) (wdata : Word)
  /-- WR_IGNORED RAW_HI (R105). -/
  | wrIgnoredRawHi (addr : Offset) (wdata : Word)
  /-- WR_IGNORED READING (R105). -/
  | wrIgnoredReading (addr : Offset) (wdata : Word)
  /-- WR_IGNORED, reserved offset 0x34 (R105, R49). -/
  | wrIgnoredReserved34 (addr : Offset) (wdata : Word)
  /-- WR_IGNORED, reserved offsets 0x38 to 0x3C (R105, R49). -/
  | wrIgnoredReserved38To3C (addr : Offset) (wdata : Word)
  /-- WR_IGNORED, reserved offsets 0x40 to 0x7C (R105, R49). -/
  | wrIgnoredReserved40To7C (addr : Offset) (wdata : Word)
  /-- WR_IGNORED, reserved offsets 0x80 to 0xFC (R105, R49). -/
  | wrIgnoredReserved80ToFC (addr : Offset) (wdata : Word)
  deriving DecidableEq, Repr

end Sys2Proof
end

