-- ==== Sys2Proof/WellFormed.lean ====
section
/-! DEFINITION. Which terms of Instr stand for a transaction word: the address must select the register of the row
(`addr[7:2]`, spec/30_encoding.md R80, R88, R89), and a reserved command's code must be one of its row (R81). -/

namespace Sys2Proof

/-- `addr[7:2]` lies in `lo` to `hi`: the slots of a row (R60, R89). -/
def slotWithin (lo hi : Nat) (addr : Offset) : Bool :=
  decide (lo ≤ (addr.extractLsb' 2 6).toNat) && decide ((addr.extractLsb' 2 6).toNat ≤ hi)

/-- The operands are ones the row's encoding admits (R89). -/
def Instr.wf : Instr → Bool
  | .rd _ _ => true
  | .wrCtrl addr _ => slotWithin 0x01 0x01 addr
  | .cmdNop addr _ => slotWithin 0x02 0x02 addr
  | .cmdAcquire addr _ => slotWithin 0x02 0x02 addr
  | .cmdDecode addr _ => slotWithin 0x02 0x02 addr
  | .cmdReserved3 addr _ => slotWithin 0x02 0x02 addr
  | .cmdReserved4To7 addr _ code =>
      slotWithin 0x02 0x02 addr && decide (4 ≤ code.toNat) && decide (code.toNat ≤ 7)
  | .cmdReserved8ToF addr _ code => slotWithin 0x02 0x02 addr && decide (8 ≤ code.toNat)
  | .wrStatus addr _ => slotWithin 0x03 0x03 addr
  | .wrParamTStartLow addr _ => slotWithin 0x04 0x04 addr
  | .wrParamTStartHigh addr _ => slotWithin 0x05 0x05 addr
  | .wrParamMaxWindows addr _ => slotWithin 0x06 0x06 addr
  | .wrParamBitThreshold addr _ => slotWithin 0x07 0x07 addr
  | .wrParamRetryBound addr _ => slotWithin 0x08 0x08 addr
  | .wrParamTSettle addr _ => slotWithin 0x09 0x09 addr
  | .wrIgnoredId addr _ => slotWithin 0x00 0x00 addr
  | .wrIgnoredRawLo addr _ => slotWithin 0x0A 0x0A addr
  | .wrIgnoredRawHi addr _ => slotWithin 0x0B 0x0B addr
  | .wrIgnoredReading addr _ => slotWithin 0x0C 0x0C addr
  | .wrIgnoredReserved34 addr _ => slotWithin 0x0D 0x0D addr
  | .wrIgnoredReserved38To3C addr _ => slotWithin 0x0E 0x0F addr
  | .wrIgnoredReserved40To7C addr _ => slotWithin 0x10 0x1F addr
  | .wrIgnoredReserved80ToFC addr _ => slotWithin 0x20 0x3F addr

end Sys2Proof
end

