-- ==== Sys2Proof/Decode.lean ====
section
/-! DEFINITION. The decode procedure of spec/30_encoding.md R89, the encoder written from R80, R81 and the offsets of
spec/10_state.md R26, and the host's notation of R90 and R91. Decoding is total on the 41-bit transaction words; a number
that is no transaction word is rejected by name (log 13). -/

namespace Sys2Proof

/-- `addr[7:2]`, the part of the address that selects the register (R63, R80). -/
def slotOf (addr : Offset) : BitVec 6 := addr.extractLsb' 2 6

/-- A CMD write, by `wdata[3:0]` (R81, R89). -/
def decodeCmd (addr : Offset) (ignored : BitVec 28) (code : BitVec 4) : Instr :=
  match code.toNat with
  | 0 => .cmdNop addr ignored
  | 1 => .cmdAcquire addr ignored
  | 2 => .cmdDecode addr ignored
  | 3 => .cmdReserved3 addr ignored
  | n => if n < 8 then .cmdReserved4To7 addr ignored code else .cmdReserved8ToF addr ignored code

/-- A write, by `addr[7:2]` (R89). -/
def decodeWrite (addr : Offset) (wdata : Word) : Instr :=
  match (slotOf addr).toNat with
  | 0x00 => .wrIgnoredId addr wdata
  | 0x01 => .wrCtrl addr wdata
  | 0x02 => decodeCmd addr (wdata.extractLsb' 4 28) (wdata.extractLsb' 0 4)
  | 0x03 => .wrStatus addr wdata
  | 0x04 => .wrParamTStartLow addr wdata
  | 0x05 => .wrParamTStartHigh addr wdata
  | 0x06 => .wrParamMaxWindows addr wdata
  | 0x07 => .wrParamBitThreshold addr wdata
  | 0x08 => .wrParamRetryBound addr wdata
  | 0x09 => .wrParamTSettle addr wdata
  | 0x0A => .wrIgnoredRawLo addr wdata
  | 0x0B => .wrIgnoredRawHi addr wdata
  | 0x0C => .wrIgnoredReading addr wdata
  | 0x0D => .wrIgnoredReserved34 addr wdata
  | n =>
    if n < 0x10 then .wrIgnoredReserved38To3C addr wdata
    else if n < 0x20 then .wrIgnoredReserved40To7C addr wdata
    else .wrIgnoredReserved80ToFC addr wdata

/-- The operation a transaction word names: every 41-bit word names one (R89). -/
def decode (w : TransactionWord) : Instr :=
  if w.getLsbD 40 then decodeWrite (w.extractLsb' 32 8) (w.extractLsb' 0 32)
  else .rd (w.extractLsb' 32 8) (w.extractLsb' 0 32)

/-- Why a number is no operation. -/
inductive DecodeError where
  /-- A bit above bit 40 is set: the bus has no pin for it (R80; log 13). -/
  | notATransactionWord
  deriving DecidableEq, Repr

/-- Decoding of any number: a transaction word has 41 significant bits (R80). -/
def decodeNumber (n : Nat) : Except DecodeError Instr :=
  if n < 2 ^ 41 then .ok (decode (BitVec.ofNat 41 n)) else .error .notATransactionWord

/-- What the decoder reads from a row's bits, numbered as spec/opcode_table.json numbers them (R80): the bits from
`nbits` up are 0. -/
def decodeTableWord (nbits w : Nat) : Option Instr :=
  match decodeNumber (w % 2 ^ nbits) with
  | .ok i => some i
  | .error _ => none

/-- The transaction word `{we, addr, wdata}` (R80). -/
def transactionWord (we : Bool) (addr : Offset) (wdata : Word) : TransactionWord :=
  BitVec.ofBool we ++ addr ++ wdata

/-- The `wdata` of a CMD write: bits 31:4 are ignored, bits 3:0 are the code (R80, R81). -/
def cmdWdata (ignored : BitVec 28) (code : BitVec 4) : Word := ignored ++ code

/-- The transaction word of an operation (R80, R81). -/
def encode : Instr → TransactionWord
  | .rd addr wdata => transactionWord false addr wdata
  | .wrCtrl addr wdata => transactionWord true addr wdata
  | .cmdNop addr ignored => transactionWord true addr (cmdWdata ignored 0x0#4)
  | .cmdAcquire addr ignored => transactionWord true addr (cmdWdata ignored 0x1#4)
  | .cmdDecode addr ignored => transactionWord true addr (cmdWdata ignored 0x2#4)
  | .cmdReserved3 addr ignored => transactionWord true addr (cmdWdata ignored 0x3#4)
  | .cmdReserved4To7 addr ignored code => transactionWord true addr (cmdWdata ignored code)
  | .cmdReserved8ToF addr ignored code => transactionWord true addr (cmdWdata ignored code)
  | .wrStatus addr wdata => transactionWord true addr wdata
  | .wrParamTStartLow addr wdata => transactionWord true addr wdata
  | .wrParamTStartHigh addr wdata => transactionWord true addr wdata
  | .wrParamMaxWindows addr wdata => transactionWord true addr wdata
  | .wrParamBitThreshold addr wdata => transactionWord true addr wdata
  | .wrParamRetryBound addr wdata => transactionWord true addr wdata
  | .wrParamTSettle addr wdata => transactionWord true addr wdata
  | .wrIgnoredId addr wdata => transactionWord true addr wdata
  | .wrIgnoredRawLo addr wdata => transactionWord true addr wdata
  | .wrIgnoredRawHi addr wdata => transactionWord true addr wdata
  | .wrIgnoredReading addr wdata => transactionWord true addr wdata
  | .wrIgnoredReserved34 addr wdata => transactionWord true addr wdata
  | .wrIgnoredReserved38To3C addr wdata => transactionWord true addr wdata
  | .wrIgnoredReserved40To7C addr wdata => transactionWord true addr wdata
  | .wrIgnoredReserved80ToFC addr wdata => transactionWord true addr wdata

/-- A row of spec/opcode_table.json: a word is of the row exactly when it agrees with `value` on the bits of `mask`
(R80, R89). -/
structure TableRow where
  value : TransactionWord
  mask : TransactionWord
  deriving DecidableEq, Repr

/-- The row an operation stands for, copied from the table's `match` and `mask`. -/
def tableRow : Instr → TableRow
  | .rd _ _ => ⟨0x00000000000#41, 0x10000000000#41⟩
  | .wrCtrl _ _ => ⟨0x10400000000#41, 0x1FC00000000#41⟩
  | .cmdNop _ _ => ⟨0x10800000000#41, 0x1FC0000000F#41⟩
  | .cmdAcquire _ _ => ⟨0x10800000001#41, 0x1FC0000000F#41⟩
  | .cmdDecode _ _ => ⟨0x10800000002#41, 0x1FC0000000F#41⟩
  | .cmdReserved3 _ _ => ⟨0x10800000003#41, 0x1FC0000000F#41⟩
  | .cmdReserved4To7 _ _ _ => ⟨0x10800000004#41, 0x1FC0000000C#41⟩
  | .cmdReserved8ToF _ _ _ => ⟨0x10800000008#41, 0x1FC00000008#41⟩
  | .wrStatus _ _ => ⟨0x10C00000000#41, 0x1FC00000000#41⟩
  | .wrParamTStartLow _ _ => ⟨0x11000000000#41, 0x1FC00000000#41⟩
  | .wrParamTStartHigh _ _ => ⟨0x11400000000#41, 0x1FC00000000#41⟩
  | .wrParamMaxWindows _ _ => ⟨0x11800000000#41, 0x1FC00000000#41⟩
  | .wrParamBitThreshold _ _ => ⟨0x11C00000000#41, 0x1FC00000000#41⟩
  | .wrParamRetryBound _ _ => ⟨0x12000000000#41, 0x1FC00000000#41⟩
  | .wrParamTSettle _ _ => ⟨0x12400000000#41, 0x1FC00000000#41⟩
  | .wrIgnoredId _ _ => ⟨0x10000000000#41, 0x1FC00000000#41⟩
  | .wrIgnoredRawLo _ _ => ⟨0x12800000000#41, 0x1FC00000000#41⟩
  | .wrIgnoredRawHi _ _ => ⟨0x12C00000000#41, 0x1FC00000000#41⟩
  | .wrIgnoredReading _ _ => ⟨0x13000000000#41, 0x1FC00000000#41⟩
  | .wrIgnoredReserved34 _ _ => ⟨0x13400000000#41, 0x1FC00000000#41⟩
  | .wrIgnoredReserved38To3C _ _ => ⟨0x13800000000#41, 0x1F800000000#41⟩
  | .wrIgnoredReserved40To7C _ _ => ⟨0x14000000000#41, 0x1C000000000#41⟩
  | .wrIgnoredReserved80ToFC _ _ => ⟨0x18000000000#41, 0x18000000000#41⟩

/-- A transaction word belongs to a row of the table. -/
def TableRow.holds (r : TableRow) (w : TransactionWord) : Bool := (w &&& r.mask) == r.value

/-- The byte offset of a register in the window (R26). -/
def Reg.offset : Reg → Offset
  | .id => 0x00#8
  | .ctrl => 0x04#8
  | .cmd => 0x08#8
  | .status => 0x0C#8
  | .tStartLow => 0x10#8
  | .tStartHigh => 0x14#8
  | .maxWindows => 0x18#8
  | .bitThreshold => 0x1C#8
  | .retryBound => 0x20#8
  | .tSettle => 0x24#8
  | .rawLo => 0x28#8
  | .rawHi => 0x2C#8
  | .reading => 0x30#8

/-- The register at an address: `addr[1:0]` is ignored, and slots 0x0D to 0x3F hold none (R26, R60, R63). -/
def Reg.ofAddr (addr : Offset) : Option Reg :=
  match (slotOf addr).toNat with
  | 0x00 => some .id
  | 0x01 => some .ctrl
  | 0x02 => some .cmd
  | 0x03 => some .status
  | 0x04 => some .tStartLow
  | 0x05 => some .tStartHigh
  | 0x06 => some .maxWindows
  | 0x07 => some .bitThreshold
  | 0x08 => some .retryBound
  | 0x09 => some .tSettle
  | 0x0A => some .rawLo
  | 0x0B => some .rawHi
  | 0x0C => some .reading
  | _ => none

/-- A parameter register, the target of the pseudo-instruction SET (R91). -/
inductive Param where
  | tStartLow | tStartHigh | maxWindows | bitThreshold | retryBound | tSettle
  deriving DecidableEq, Repr

/-- The register a parameter is held in (R26). -/
def Param.reg : Param → Reg
  | .tStartLow => .tStartLow
  | .tStartHigh => .tStartHigh
  | .maxWindows => .maxWindows
  | .bitThreshold => .bitThreshold
  | .retryBound => .retryBound
  | .tSettle => .tSettle

/-- A line of the host's notation: RD and WR (R90) and the pseudo-instructions (R91). A register name is written as
its offset, `Reg.offset`. -/
inductive HostLine where
  | rd (off : Offset)
  | wr (off : Offset) (value : Word)
  | nop | acquire | decode | irqOn | irqOff | clrDone | clrRej | clrAll
  | set (p : Param) (value : Word)
  | waitDone
  deriving DecidableEq, Repr

/-- The transaction word of a line (R90, R91). WAITDONE is a loop of the host: this is the word it repeats until
`waitDoneEnds` holds of the value read. -/
def HostLine.word : HostLine → TransactionWord
  | .rd off => transactionWord false off 0#32
  | .wr off value => transactionWord true off value
  | .nop => transactionWord true (Reg.offset .cmd) 0x0#32
  | .acquire => transactionWord true (Reg.offset .cmd) 0x1#32
  | .decode => transactionWord true (Reg.offset .cmd) 0x2#32
  | .irqOn => transactionWord true (Reg.offset .ctrl) 0x1#32
  | .irqOff => transactionWord true (Reg.offset .ctrl) 0x0#32
  | .clrDone => transactionWord true (Reg.offset .status) 0x2#32
  | .clrRej => transactionWord true (Reg.offset .status) 0x20#32
  | .clrAll => transactionWord true (Reg.offset .status) 0x22#32
  | .set p value => transactionWord true p.reg.offset value
  | .waitDone => transactionWord false (Reg.offset .status) 0#32

/-- WAITDONE's loop ends on a STATUS value whose bit 1 is 1 (R91). -/
def waitDoneEnds (status : Word) : Bool := status.getLsbD 1

end Sys2Proof
end

