-- ==== Sys2Proof/Machine/State.lean ====
section
/-! DEFINITION. The state of the block: every element of spec/10_state.md R50 at the width given there, and the model's
own three fields (the inputs of the coming cycles, the count of cycles, the value last read). And the state after reset
(R53). A 1-bit element is a Bool: 1 is true, and a line level High is true (R10). -/

namespace Sys2Proof.Machine

/-- The sequencer's phase: the six names of R86 (its codes 6 and 7 are never held; log 11). -/
inductive Phase where
  | idle | startLow | startHigh | capture | validate | settle
  deriving DecidableEq, Repr

/-- The command that runs (R50): 1 is ACQUIRE, 0 is DECODE. -/
inductive Mode where
  | decode | acquire
  deriving DecidableEq, Repr

/-- The outcome held in STATUS.ERR (R34, R85). -/
inductive Err where
  | none | incomplete | checksumMismatch | exhausted
  deriving DecidableEq, Repr

/-- Five bytes, byte 0 first: the frame buffer `fb[0..4]` (R51) and the committed frame `raw[0..4]` (R46, R47). -/
structure Frame where
  b0 : Byte
  b1 : Byte
  b2 : Byte
  b3 : Byte
  b4 : Byte
  deriving DecidableEq, Repr

/-- The frame of zeros (R53, R110, R130). -/
def Frame.zero : Frame := ⟨0#8, 0#8, 0#8, 0#8, 0#8⟩

/-- The levels of the block's input ports in one clock cycle (R20; `clk` is the step itself). -/
structure Pins where
  /-- `rst_n`, active low (R260). -/
  rstN : Bool
  /-- `tick_i` (R23). -/
  tickI : Bool
  /-- `dq_i`, the level of the line (R21). -/
  dqI : Bool
  /-- `bus_sel`: a transaction is presented (R80). -/
  busSel : Bool
  /-- `bus_we`. -/
  busWe : Bool
  /-- `bus_addr`. -/
  busAddr : Offset
  /-- `bus_wdata`. -/
  busWdata : Word
  deriving DecidableEq, Repr

/-- Every state element of the block (R50) and the model's own fields (the last three; log 1, 4, 5). -/
structure State where
  /-- `phase`: sequencer phase (R25, R37). -/
  phase : Phase
  /-- `mode`: the running command (R50). -/
  mode : Mode
  /-- `timer`: ticks elapsed in the current timed phase (R131). -/
  timer : BitVec 24
  /-- `win`: index of the current capture window (R152). -/
  win : BitVec 8
  /-- `prev`: line level of the current window (R134, R152). -/
  prev : Bool
  /-- `cnt`: samples counted in the current window (R151). -/
  cnt : BitVec 8
  /-- `nbits`: bits assembled (R38, R172). -/
  nbits : BitVec 6
  /-- `fb[0..4]`: frame buffer (R51). -/
  fb : Frame
  /-- `attempts`: attempts started (R39). -/
  attempts : BitVec 8
  /-- `cap_hit`: capture ended at the cap (R36). -/
  capHit : Bool
  /-- `done`: STATUS.DONE (R32). -/
  done : Bool
  /-- `ok`: STATUS.OK (R33). -/
  ok : Bool
  /-- `err`: STATUS.ERR (R34). -/
  err : Err
  /-- `rej`: STATUS.REJ (R35). -/
  rej : Bool
  /-- `irq_en`: CTRL.IRQ_EN (R28). -/
  irqEn : Bool
  /-- T_START_LOW (R40). -/
  tStartLow : BitVec 24
  /-- T_START_HIGH (R41). -/
  tStartHigh : BitVec 16
  /-- MAX_WINDOWS (R42). -/
  maxWindows : BitVec 8
  /-- BIT_THRESHOLD (R43). -/
  bitThreshold : BitVec 8
  /-- RETRY_BOUND (R44). -/
  retryBound : BitVec 8
  /-- T_SETTLE (R45). -/
  tSettle : BitVec 24
  /-- `raw[0..4]`: committed frame (R46, R47). -/
  raw : Frame
  /-- `hum_x10` (R48, R193). -/
  humX10 : BitVec 16
  /-- `temp_x10` (R48, R194). -/
  tempX10 : BitVec 16
  /-- `dq_oe`: the block drives the line (R21). -/
  dqOe : Bool
  /-- `dq_o`: the level driven (R21). -/
  dqO : Bool
  /-- `sync1`: first flip-flop of the synchronizer (R22). -/
  sync1 : Bool
  /-- `sync2`: second flip-flop, the level the rules read as `sample` (R22). -/
  sync2 : Bool
  /-- The model's own: the input levels of the coming cycles, the head for the cycle about to run (log 1). -/
  inputs : List Pins
  /-- The model's own: how many edges have passed, the index of the free inputs (log 2, 5). -/
  cycle : Nat
  /-- The model's own: what `bus_rdata` carried in the cycle that the last edge ended (log 4). -/
  rdata : Word
  deriving DecidableEq, Repr

/-- The state after reset: R53 for every element of the block; the model's own fields as log 1, 4 and 5 say. -/
def State.reset : State where
  phase := .idle
  mode := .decode
  timer := 0#24
  win := 0#8
  prev := true
  cnt := 0#8
  nbits := 0#6
  fb := .zero
  attempts := 0#8
  capHit := false
  done := false
  ok := false
  err := .none
  rej := false
  irqEn := false
  tStartLow := Config.resetTStartLow
  tStartHigh := Config.resetTStartHigh
  maxWindows := Config.resetMaxWindows
  bitThreshold := Config.resetBitThreshold
  retryBound := Config.resetRetryBound
  tSettle := Config.resetTSettle
  raw := .zero
  humX10 := 0#16
  tempX10 := 0#16
  dqOe := false
  dqO := false
  sync1 := true
  sync2 := true
  inputs := []
  cycle := 0
  rdata := 0#32

/-- The reasons to fault: none. The block raises no exception and has no trap mechanism (R230), so no step of the model
ends in a fault (log 9). -/
inductive Fault where
  deriving DecidableEq, Repr

/-- The reasons to refuse. -/
inductive Refusal where
  /-- Raised by an arm of exec whose instruction has no meaning yet; no arm is left that does (log 9). Safe: the
  machine stops where the hardware goes on. -/
  | notModelled (mnemonic : String)
  deriving DecidableEq, Repr

end Sys2Proof.Machine
end

