-- ==== Sys2Proof/Machine/Operands.lean ====
section
/-! DEFINITION. Operand assembly: the input ports of the cycle about to run and the transaction they carry
(spec/10_state.md R20, spec/30_encoding.md R80), and the parameter operands (R84). -/

namespace Sys2Proof.Machine

/-- The input levels of the cycle about to run: the head of `inputs`. Where none is listed, `tick_i` and `dq_i` are free
values, and the host presents no transaction and no reset (R6, R21, R23; log 2, log 3). -/
def State.pins (s : State) : Pins :=
  match s.inputs with
  | p :: _ => p
  | [] => { rstN := true, tickI := Config.freeTick s.cycle, dqI := Config.freeDq s.cycle,
            busSel := false, busWe := false, busAddr := 0#8, busWdata := 0#32 }

/-- The transaction word on the bus pins (R80). -/
def Pins.word (p : Pins) : TransactionWord := transactionWord p.busWe p.busAddr p.busWdata

/-- The pins with the transaction word `n` presented and `rst_n` high; a number that is no transaction word cannot be
presented, so none is (R80; log 7, log 13). -/
def Pins.present (p : Pins) (n : Nat) : Pins :=
  if n < 2 ^ 41 then
    { p with rstN := true, busSel := true, busWe := n.testBit 40,
             busAddr := BitVec.ofNat 8 (n / 2 ^ 32), busWdata := BitVec.ofNat 32 n }
  else { p with rstN := true, busSel := false }

/-- The state whose coming cycle presents the transaction word `n` (log 7). -/
def State.present (s : State) (n : Nat) : State :=
  { s with inputs := s.pins.present n :: s.inputs.tail }

/-- A parameter operand of width `w`: `wdata[w-1:0]`; the upper bits are dropped (R84, `trunc_w` of R9). -/
def paramOperand (w : Nat) (wdata : Word) : BitVec w := wdata.setWidth w

/-- A parameter register as read: `zext_32(field)` (R84). -/
def paramRead {w : Nat} (field : BitVec w) : Word := field.setWidth 32

end Sys2Proof.Machine
end

