-- ==== Sys2Proof/Machine/Flags.lean ====
section
/-! DEFINITION. The status flags: their codes (spec/30_encoding.md R85, R86), the STATUS word (spec/10_state.md R30 to
R39), the interrupt output (spec/60_exceptions.md R233) and the clearing of DONE and REJ by a STATUS write (R103). -/

namespace Sys2Proof.Machine

/-- The code of a phase in STATUS.PHASE (R86). -/
def Phase.code : Phase → BitVec 3
  | .idle => 0#3
  | .startLow => 1#3
  | .startHigh => 2#3
  | .capture => 3#3
  | .validate => 4#3
  | .settle => 5#3

/-- The code of an outcome in STATUS.ERR (R85). -/
def Err.code : Err → BitVec 2
  | .none => 0#2
  | .incomplete => 1#2
  | .checksumMismatch => 2#2
  | .exhausted => 3#2

/-- STATUS.BUSY reads 1 exactly when the phase is not IDLE (R31). -/
def busy (s : State) : Bool := s.phase != .idle

/-- The STATUS word (R30). -/
def statusWord (s : State) : Word :=
  s.attempts ++ 0b00#2 ++ s.nbits ++ 0b00000#5 ++ s.phase.code ++ 0b0#1 ++
    BitVec.ofBool s.capHit ++ BitVec.ofBool s.rej ++ s.err.code ++ BitVec.ofBool s.ok ++
    BitVec.ofBool s.done ++ BitVec.ofBool (busy s)

/-- The interrupt output, a level: `irq_o = irq_en and done` (R233). -/
def irqO (s : State) : Bool := s.irqEn && s.done

/-- A rejected host action sets STATUS.REJ and nothing else (R35). -/
def setRej (s : State) : State := { s with rej := true }

/-- The write-one-to-clear of a STATUS write (R83, R103): `wdata[1]` clears DONE unless the sequencer sets it at this
edge (`doneSet`, R74 b), `wdata[5]` clears REJ, and every other bit is ignored. -/
def clearFlags (wdata : Word) (doneSet : Bool) (s : State) : State :=
  { s with done := s.done && !(wdata.getLsbD 1 && !doneSet), rej := s.rej && !(wdata.getLsbD 5) }

end Sys2Proof.Machine
end

