-- ==== Sys2Proof/Machine/Ops.lean ====
section
/-! DEFINITION. The named operations over the block's elements: the line (spec/10_state.md R21), the frame buffer as a
file of bytes (R51), the completion of a command, which is this block's analogue of taking an exception, and its
acknowledgement, the analogue of the return (spec/60_exceptions.md R236, R237), the register read
(spec/40_host_commands.md R100), and what every clock edge and every reset edge does (R11, R22, R260). -/

namespace Sys2Proof.Machine

/-- `drive(L)`: the block drives the line to `level` (R10, R21). -/
def drive (level : Bool) (s : State) : State := { s with dqOe := true, dqO := level }

/-- `release()`: the pin is in input mode (R10, R21). -/
def release (s : State) : State := { s with dqOe := false, dqO := false }

/-- `fb[i] <- trunc_8((fb[i] << 1) | b)`: one bit shifted into byte `i`, most significant bit first (R172). -/
def shiftInto (byte : Byte) (b : Bool) : Byte := (byte <<< 1) ||| (BitVec.ofBool b).setWidth 8

/-- A frame with one bit shifted into its byte `i` (R51, R172). -/
def Frame.shiftIn (f : Frame) (i : Nat) (b : Bool) : Frame :=
  match i with
  | 0 => { f with b0 := shiftInto f.b0 b }
  | 1 => { f with b1 := shiftInto f.b1 b }
  | 2 => { f with b2 := shiftInto f.b2 b }
  | 3 => { f with b3 := shiftInto f.b3 b }
  | 4 => { f with b4 := shiftInto f.b4 b }
  | _ => f

/-- Byte `j` of a frame, `fb[j]` or `raw[j]` (R50). -/
def Frame.byte (f : Frame) (j : Nat) : Byte :=
  match j with
  | 0 => f.b0
  | 1 => f.b1
  | 2 => f.b2
  | 3 => f.b3
  | 4 => f.b4
  | _ => 0#8

/-- The completion of a command with its outcome (R236): DONE becomes 1, ERR takes the outcome and the phase becomes
IDLE. The block saves nothing and control goes nowhere: it waits in IDLE. -/
def completeCommand (outcome : Err) (s : State) : State :=
  { s with err := outcome, done := true, phase := .idle }

/-- The acknowledgement that a new command carries with it: DONE, OK, ERR and the result registers are cleared, so that
no stale Reading survives (R110, R237). -/
def clearOutcome (s : State) : State :=
  { s with done := false, ok := false, err := .none, raw := .zero, humX10 := 0#16, tempX10 := 0#16 }

/-- The value a register presents, from the state before the edge (R26 to R48, R100). -/
def Reg.read (s : State) : Reg → Word
  | .id => Config.idValue
  | .ctrl => (BitVec.ofBool s.irqEn).setWidth 32
  | .cmd => 0#32
  | .status => statusWord s
  | .tStartLow => paramRead s.tStartLow
  | .tStartHigh => paramRead s.tStartHigh
  | .maxWindows => paramRead s.maxWindows
  | .bitThreshold => paramRead s.bitThreshold
  | .retryBound => paramRead s.retryBound
  | .tSettle => paramRead s.tSettle
  | .rawLo => s.raw.b3 ++ s.raw.b2 ++ s.raw.b1 ++ s.raw.b0
  | .rawHi => s.raw.b4.setWidth 32
  | .reading => s.tempX10 ++ s.humX10

/-- `BusRead(off)`: the value of the register at an address, 0 at a reserved offset (R10, R49, R100). -/
def busRead (s : State) (addr : Offset) : Word :=
  match Reg.ofAddr addr with
  | some r => Reg.read s r
  | none => 0#32

/-- `bus_rdata`, a combinational function of the state and of the bus pins: 0 when there is no transaction or it is a
write (R11, R100); while `rst_n` = 0 it returns the values of the reset state (R260; log 6). -/
def busRdata (s : State) : Word :=
  if s.pins.busSel && !s.pins.busWe then
    busRead (if s.pins.rstN then s else State.reset) s.pins.busAddr
  else 0#32

/-- Byte `k` of a 32-bit value: bits `[8k+7:8k]` (R64). -/
def byteOf (v : Word) (k : Nat) : Byte := v.extractLsb' (8 * k) 8

/-- What a host that reads the window as bytes through a little-endian interconnect sees at a host address (R61, R64);
none outside the 256-byte window (R60). -/
def hostByte (s : State) (hostAddr : Nat) : Option Byte :=
  if Config.pBaseAddr ≤ hostAddr ∧ hostAddr < Config.pBaseAddr + 256 then
    some (byteOf (busRead s (BitVec.ofNat 8 (hostAddr - Config.pBaseAddr)))
      ((hostAddr - Config.pBaseAddr) % 4))
  else none

/-- What every edge with `rst_n` = 1 does beside the sequencer and the host: the synchronizer shifts (R22). Of the model's
own fields, the inputs of the cycle are used up, the cycle is counted, and no value has been read (log 1, 4, 5). -/
def clocked (s : State) : State :=
  { s with sync1 := s.pins.dqI, sync2 := s.sync1,
           inputs := s.inputs.tail, cycle := s.cycle + 1, rdata := 0#32 }

/-- The edge at which `rst_n` = 0: every element takes its reset value, and no other rule acts (R53, R260). -/
def resetEdge (s : State) : State :=
  { State.reset with inputs := s.inputs.tail, cycle := s.cycle + 1, rdata := busRdata s }

end Sys2Proof.Machine
end

