-- ==== Sys2Proof/Machine/Classifier.lean ====
section
/-! DEFINITION. bit_classifier (spec/43_bit_classifier.md): which windows carry a bit, the threshold decision, and the
assembly of the frame, most significant bit first. -/

namespace Sys2Proof.Machine

/-- `eligible(k)`: window `k` is sampled for a bit (R170, R173). -/
def eligible (k : BitVec 8) (nbits : BitVec 6) : Bool :=
  decide (Config.preambleWindows ≤ k) && decide (k.toNat % 2 = 0) && decide (nbits < Config.frameBits)

/-- The threshold decision, a strict unsigned comparison: the tie goes to 0 (R171). -/
def bitOf (d threshold : BitVec 8) : Bool := decide (threshold < d)

/-- Frame assembly: the bit is shifted into the byte `nbits >> 3` and counted (R172). -/
def assembleBit (b : Bool) (s : State) : State :=
  { s with fb := s.fb.shiftIn (s.nbits >>> 3).toNat b, nbits := s.nbits + 1#6 }

/-- `Classify(k, d)` for a window that a level change ends (R152, R170 to R172). -/
def classify (k d : BitVec 8) (s : State) : State :=
  if eligible k s.nbits then assembleBit (bitOf d s.bitThreshold) s else s

end Sys2Proof.Machine
end

