-- ==== Sys2Proof/Machine/PulseTimer.lean ====
section
/-! DEFINITION. pulse_duration_timer (spec/42_pulse_duration_timer.md): the capture loop, one sample a tick. -/

namespace Sys2Proof.Machine

/-- `SameLevel()`: a sample at the level of the current window; the 255th ends capture at once and the window is not
classified (R151, R153). -/
def sameLevel (s : State) : State :=
  if s.cnt + 1#8 = Config.tickCap then
    { s with cnt := Config.tickCap, capHit := true, phase := .validate }
  else { s with cnt := s.cnt + 1#8 }

/-- `LevelChange(s)`: a sample at the other level ends the window and is the first tick of the next (R152). -/
def levelChange (sample : Bool) (s : State) : State :=
  { classify s.win s.cnt s with win := s.win + 1#8, prev := sample, cnt := 1#8 }

/-- CAPTURE, one cycle: the window limit is tested before the tick's sample (R150, R154, R235 b). -/
def captureCycle (tick sample : Bool) (s : State) : State :=
  if s.maxWindows ≤ s.win then { s with phase := .validate }
  else if tick then
    if sample = s.prev then sameLevel s else levelChange sample s
  else s

end Sys2Proof.Machine
end

