-- ==== Sys2Proof/Machine/Handshake.lean ====
section
/-! DEFINITION. dht_protocol_decoder (spec/41_protocol_decoder.md): the start of an attempt, the timed phases and the
start handshake. -/

namespace Sys2Proof.Machine

/-- `BeginAttempt(k)`: the start of attempt `k` (R130). -/
def beginAttempt (k : BitVec 8) (s : State) : State :=
  drive false { s with attempts := k, fb := .zero, nbits := 0#6, capHit := false, timer := 0#24,
                       phase := .startLow }

/-- One cycle of a timed phase of length `n` ticks with its exit action: it counts exactly `n` strobes and leaves in the
first cycle after the last of them (R131). -/
def timedCycle (n : BitVec 24) (exit : State → State) (tick : Bool) (s : State) : State :=
  if n ≤ s.timer then exit { s with timer := 0#24 }
  else if tick then { s with timer := s.timer + 1#24 }
  else s

/-- The exit of START_LOW: the line is driven High (R132). -/
def exitStartLow (s : State) : State := { s with phase := .startHigh, dqO := true }

/-- START_LOW, one cycle (R132). -/
def startLowCycle (tick : Bool) (s : State) : State := timedCycle s.tStartLow exitStartLow tick s

/-- `EnterCapture()`: the line is released and window 0 tracks High (R134). -/
def enterCapture (s : State) : State :=
  { release s with phase := .capture, win := 0#8, prev := true, cnt := 0#8 }

/-- START_HIGH, one cycle; the length is `zext_24(T_START_HIGH)` (R131, R133). -/
def startHighCycle (tick : Bool) (s : State) : State :=
  timedCycle (s.tStartHigh.setWidth 24) enterCapture tick s

end Sys2Proof.Machine
end

