-- ==== Sys2Proof/Machine/Retry.lean ====
section
/-! DEFINITION. The retry sequencer (spec/45_retry_sequencer.md): the settle delay and what follows it. -/

namespace Sys2Proof.Machine

/-- The exit of SETTLE: the next attempt, or EXHAUSTED (R212). -/
def exitSettle (s : State) : State :=
  if s.attempts < s.retryBound then beginAttempt (s.attempts + 1#8) s
  else completeCommand .exhausted s

/-- SETTLE, one cycle (R211). -/
def settleCycle (tick : Bool) (s : State) : State := timedCycle s.tSettle exitSettle tick s

/-- `ExhaustAtOnce()`: ACQUIRE with RETRY_BOUND = 0 (R213). -/
def exhaustAtOnce (s : State) : State :=
  completeCommand .exhausted { s with attempts := 0#8, nbits := 0#6, capHit := false }

end Sys2Proof.Machine
end

