-- ==== Sys2Proof/Machine/Validator.lean ====
section
/-! DEFINITION. frame_checksum_validator (spec/44_frame_checksum_validator.md): completeness, checksum, conversion, and
the two ends of an attempt. -/

namespace Sys2Proof.Machine

/-- The kinds of failure of an attempt (R196). -/
inductive FailKind where
  | incomplete | checksumMismatch
  deriving DecidableEq, Repr

/-- The outcome code of a failure kind (R85). -/
def FailKind.err : FailKind → Err
  | .incomplete => .incomplete
  | .checksumMismatch => .checksumMismatch

/-- The checksum a frame must carry: the exact sum of bytes 0 to 3, reduced to its low 8 bits (R192). -/
def checksum (f : Frame) : Byte :=
  BitVec.ofNat 8 (f.b0.toNat + f.b1.toNat + f.b2.toNat + f.b3.toNat)

/-- The humidity in tenths of a percent (R193). -/
def humidityX10 (f : Frame) : BitVec 16 := BitVec.ofNat 16 (10 * f.b0.toNat + f.b1.toNat)

/-- The magnitude of the temperature in tenths: bits 6:0 of byte 2 are its integer part (R194; 90_conflicts.md C1). -/
def temperatureMagnitude (f : Frame) : Nat := 10 * (f.b2.extractLsb' 0 7).toNat + f.b3.toNat

/-- The temperature in tenths of a degree, two's complement: bit 7 of byte 2 is the sign (R194). -/
def temperatureX10 (f : Frame) : BitVec 16 :=
  if f.b2.getLsbD 7 then BitVec.ofInt 16 (0 - (temperatureMagnitude f : Int))
  else BitVec.ofNat 16 (temperatureMagnitude f)

/-- `Commit()`: the success of an attempt ends the command, all at one edge (R195). -/
def commit (s : State) : State :=
  completeCommand .none
    { s with raw := s.fb, humX10 := humidityX10 s.fb, tempX10 := temperatureX10 s.fb, ok := true }

/-- `fail(kind)`: a DECODE ends with the kind; in an ACQUIRE the failure is swallowed and the settle delay follows
(R196, R214). -/
def failAttempt (kind : FailKind) (s : State) : State :=
  match s.mode with
  | .decode => completeCommand kind.err s
  | .acquire => { s with timer := 0#24, phase := .settle }

/-- VALIDATE, its one cycle: completeness before the checksum, the conversion last (R190, R191, R235 d). -/
def validateCycle (s : State) : State :=
  if s.nbits < Config.frameBits then failAttempt .incomplete s
  else if s.fb.b4 ≠ checksum s.fb then failAttempt .checksumMismatch s
  else commit s

end Sys2Proof.Machine
end

