-- ==== Sys2Proof/Machine/Sequencer.lean ====
section
/-! DEFINITION. The sequencer: what it writes at one edge, by phase (spec/41_protocol_decoder.md R135), and the edge of a
cycle without a host write (spec/00_scope.md R11). -/

namespace Sys2Proof.Machine

/-- The sequencer's writes in one cycle, from the state before the edge, the tick strobe and the synchronized sample
(R132, R133, R150, R190, R211). In IDLE it does nothing (R242). -/
def sequencer (tick sample : Bool) (s : State) : State :=
  match s.phase with
  | .idle => s
  | .startLow => startLowCycle tick s
  | .startHigh => startHighCycle tick s
  | .capture => captureCycle tick sample s
  | .validate => validateCycle s
  | .settle => settleCycle tick s

/-- The state after an edge with `rst_n` = 1 at which the host writes nothing: the sequencer reads the state before the
edge, its sample is `sync2`, and the synchronizer shifts (R11, R22). -/
def edge (s : State) : State := clocked (sequencer s.pins.tickI s.sync2 s)

/-- The sequencer sets DONE at this edge, that is a command completes (R74 b, R103, R236): it would set DONE were DONE 0
(log 17). -/
def setsDone (s : State) : Bool := (sequencer s.pins.tickI s.sync2 { s with done := false }).done

/-- A cycle without a transaction (`bus_sel` = 0, R80): the sequencer alone acts. -/
def quietCycle (s : State) : Host.Outcome State Fault Refusal := .next (edge s)

/-- A cycle with `rst_n` = 0 (R260). -/
def resetCycle (s : State) : Host.Outcome State Fault Refusal := .next (resetEdge s)

end Sys2Proof.Machine
end

