-- ==== Sys2Proof/Machine/HostCommands.lean ====
section
/-! DEFINITION. The commands (spec/40_host_commands.md R106 to R110). A command is accepted exactly when the phase before
the edge is IDLE (R74 a), and then the sequencer writes nothing at that edge. -/

namespace Sys2Proof.Machine

/-- `AcceptCommand(m)` (R110): the last outcome is cleared and the first attempt begins, or, for an ACQUIRE with
RETRY_BOUND = 0, the command is exhausted at once (R213). REJ and IRQ_EN are not touched. -/
def acceptCommand (m : Mode) (s : State) : State :=
  if m = .acquire ∧ s.retryBound = 0#8 then exhaustAtOnce (clearOutcome { s with mode := m })
  else beginAttempt 1#8 (clearOutcome { s with mode := m })

/-- A start command: accepted in IDLE, else rejected with the running command unaffected (R107, R108). -/
def startCommand (m : Mode) (s : State) : Host.Outcome State Fault Refusal :=
  .next (if busy s then setRej (edge s) else acceptCommand m (edge s))

/-- A reserved code: rejected, busy or idle (R109). -/
def rejectCommand (s : State) : Host.Outcome State Fault Refusal := .next (setRej (edge s))

/-- CMD_NOP: no effect, never rejected (R106). -/
def execCmdNop (s : State) : Host.Outcome State Fault Refusal := .next (edge s)

/-- CMD_ACQUIRE (R107). -/
def execCmdAcquire (s : State) : Host.Outcome State Fault Refusal := startCommand .acquire s

/-- CMD_DECODE (R108). -/
def execCmdDecode (s : State) : Host.Outcome State Fault Refusal := startCommand .decode s

/-- CMD_RESERVED, code 0x3 (R109). -/
def execCmdReserved3 (s : State) : Host.Outcome State Fault Refusal := rejectCommand s

/-- CMD_RESERVED, codes 0x4 to 0x7 (R109). -/
def execCmdReserved4To7 (s : State) : Host.Outcome State Fault Refusal := rejectCommand s

/-- CMD_RESERVED, codes 0x8 to 0xF (R109). -/
def execCmdReserved8ToF (s : State) : Host.Outcome State Fault Refusal := rejectCommand s

end Sys2Proof.Machine
end

