-- ==== Sys2Proof/Machine/HostReads.lean ====
section
/-! DEFINITION. The register read (spec/40_host_commands.md R100). -/

namespace Sys2Proof.Machine

/-- RD: `bus_rdata` carries the register's value before the edge; nothing else happens beside the sequencer's own cycle
(R65, R100). -/
def execRd (addr : Offset) (s : State) : Host.Outcome State Fault Refusal :=
  .next { edge s with rdata := busRead s addr }

end Sys2Proof.Machine
end

