-- ==== Sys2Proof/Machine/HostWrites.lean ====
section
/-! DEFINITION. The register writes (spec/40_host_commands.md R102 to R105). A write is judged against the state before the
edge and takes effect at it, together with the sequencer's writes (R74, R101). -/

namespace Sys2Proof.Machine

/-- WR_CTRL: `irq_en <- wdata[0]`, busy or idle (R102). -/
def execWrCtrl (wdata : Word) (s : State) : Host.Outcome State Fault Refusal :=
  .next { edge s with irqEn := wdata.getLsbD 0 }

/-- WR_STATUS: write one to clear; the sequencer's set of DONE at the same edge wins (R103). -/
def execWrStatus (wdata : Word) (s : State) : Host.Outcome State Fault Refusal :=
  .next (clearFlags wdata (setsDone s) (edge s))

/-- A write to a locked register: `store` if the phase before the edge is IDLE, else a rejection (R104). -/
def writeLocked (store : State → State) (s : State) : Host.Outcome State Fault Refusal :=
  .next (if busy s then setRej (edge s) else store (edge s))

/-- WR_PARAM T_START_LOW (R40, R104). -/
def execWrParamTStartLow (wdata : Word) (s : State) : Host.Outcome State Fault Refusal :=
  writeLocked (fun t => { t with tStartLow := paramOperand 24 wdata }) s

/-- WR_PARAM T_START_HIGH (R41, R104). -/
def execWrParamTStartHigh (wdata : Word) (s : State) : Host.Outcome State Fault Refusal :=
  writeLocked (fun t => { t with tStartHigh := paramOperand 16 wdata }) s

/-- WR_PARAM MAX_WINDOWS (R42, R104). -/
def execWrParamMaxWindows (wdata : Word) (s : State) : Host.Outcome State Fault Refusal :=
  writeLocked (fun t => { t with maxWindows := paramOperand 8 wdata }) s

/-- WR_PARAM BIT_THRESHOLD (R43, R104). -/
def execWrParamBitThreshold (wdata : Word) (s : State) : Host.Outcome State Fault Refusal :=
  writeLocked (fun t => { t with bitThreshold := paramOperand 8 wdata }) s

/-- WR_PARAM RETRY_BOUND (R44, R104). -/
def execWrParamRetryBound (wdata : Word) (s : State) : Host.Outcome State Fault Refusal :=
  writeLocked (fun t => { t with retryBound := paramOperand 8 wdata }) s

/-- WR_PARAM T_SETTLE (R45, R104). -/
def execWrParamTSettle (wdata : Word) (s : State) : Host.Outcome State Fault Refusal :=
  writeLocked (fun t => { t with tSettle := paramOperand 24 wdata }) s

/-- A write that changes no state: the cycle goes on as without it (R105). -/
def writeNothing (s : State) : Host.Outcome State Fault Refusal := .next (edge s)

/-- WR_IGNORED ID (R27, R105). -/
def execWrIgnoredId (s : State) : Host.Outcome State Fault Refusal := writeNothing s

/-- WR_IGNORED RAW_LO (R46, R105). -/
def execWrIgnoredRawLo (s : State) : Host.Outcome State Fault Refusal := writeNothing s

/-- WR_IGNORED RAW_HI (R47, R105). -/
def execWrIgnoredRawHi (s : State) : Host.Outcome State Fault Refusal := writeNothing s

/-- WR_IGNORED READING (R48, R105). -/
def execWrIgnoredReading (s : State) : Host.Outcome State Fault Refusal := writeNothing s

/-- WR_IGNORED, reserved offset 0x34 (R49, R105). -/
def execWrIgnoredReserved34 (s : State) : Host.Outcome State Fault Refusal := writeNothing s

/-- WR_IGNORED, reserved offsets 0x38 to 0x3C (R49, R105). -/
def execWrIgnoredReserved38To3C (s : State) : Host.Outcome State Fault Refusal := writeNothing s

/-- WR_IGNORED, reserved offsets 0x40 to 0x7C (R49, R105). -/
def execWrIgnoredReserved40To7C (s : State) : Host.Outcome State Fault Refusal := writeNothing s

/-- WR_IGNORED, reserved offsets 0x80 to 0xFC (R49, R105). -/
def execWrIgnoredReserved80ToFC (s : State) : Host.Outcome State Fault Refusal := writeNothing s

end Sys2Proof.Machine
end

