-- ==== Sys2Proof/Machine/Dispatch.lean ====
section
/-! DEFINITION. One arm per operation of spec/opcode_table.json: the whole clock cycle in which the host presents it, with
`rst_n` = 1. -/

namespace Sys2Proof.Machine

def exec (i : Instr) (s : State) : Host.Outcome State Fault Refusal :=
  match i with
  | .rd addr _ => Sys2Proof.Machine.execRd addr s
  | .wrCtrl _ wdata => Sys2Proof.Machine.execWrCtrl wdata s
  | .cmdNop _ _ => Sys2Proof.Machine.execCmdNop s
  | .cmdAcquire _ _ => Sys2Proof.Machine.execCmdAcquire s
  | .cmdDecode _ _ => Sys2Proof.Machine.execCmdDecode s
  | .cmdReserved3 _ _ => Sys2Proof.Machine.execCmdReserved3 s
  | .cmdReserved4To7 _ _ _ => Sys2Proof.Machine.execCmdReserved4To7 s
  | .cmdReserved8ToF _ _ _ => Sys2Proof.Machine.execCmdReserved8ToF s
  | .wrStatus _ wdata => Sys2Proof.Machine.execWrStatus wdata s
  | .wrParamTStartLow _ wdata => Sys2Proof.Machine.execWrParamTStartLow wdata s
  | .wrParamTStartHigh _ wdata => Sys2Proof.Machine.execWrParamTStartHigh wdata s
  | .wrParamMaxWindows _ wdata => Sys2Proof.Machine.execWrParamMaxWindows wdata s
  | .wrParamBitThreshold _ wdata => Sys2Proof.Machine.execWrParamBitThreshold wdata s
  | .wrParamRetryBound _ wdata => Sys2Proof.Machine.execWrParamRetryBound wdata s
  | .wrParamTSettle _ wdata => Sys2Proof.Machine.execWrParamTSettle wdata s
  | .wrIgnoredId _ _ => Sys2Proof.Machine.execWrIgnoredId s
  | .wrIgnoredRawLo _ _ => Sys2Proof.Machine.execWrIgnoredRawLo s
  | .wrIgnoredRawHi _ _ => Sys2Proof.Machine.execWrIgnoredRawHi s
  | .wrIgnoredReading _ _ => Sys2Proof.Machine.execWrIgnoredReading s
  | .wrIgnoredReserved34 _ _ => Sys2Proof.Machine.execWrIgnoredReserved34 s
  | .wrIgnoredReserved38To3C _ _ => Sys2Proof.Machine.execWrIgnoredReserved38To3C s
  | .wrIgnoredReserved40To7C _ _ => Sys2Proof.Machine.execWrIgnoredReserved40To7C s
  | .wrIgnoredReserved80ToFC _ _ => Sys2Proof.Machine.execWrIgnoredReserved80ToFC s

end Sys2Proof.Machine
end

