-- ==== Sys2Proof/Machine/Step.lean ====
section
/-! DEFINITION. One clock cycle (spec/00_scope.md R11): reset wins (spec/70_reset_and_hazards.md R260, R235 a), else the
transaction on the bus pins, if one is presented, is decoded and executed (spec/30_encoding.md R80, R89). -/

namespace Sys2Proof.Machine

/-- One rising edge of `clk`. -/
def step (s : State) : Host.Outcome State Fault Refusal :=
  if s.pins.rstN then
    if s.pins.busSel then exec (decode s.pins.word) s else quietCycle s
  else resetCycle s

/-- The state whose very next step runs the transaction `w`, its bits from `nbits` up taken as 0: the host presents it in
the coming cycle, with `rst_n` = 1 and every other input of that cycle as it was (log 7). -/
def State.withFetchWord (s : State) (nbits w : Nat) : State := s.present (w % 2 ^ nbits)

end Sys2Proof.Machine
end

