-- ==== Sys2Proof/Safety.lean ====
section
/-! DEFINITION. The terms of the claims: the end of a command (spec/60_exceptions.md R244), the invariants of the block, the
bound on how long a command runs (spec/70_reset_and_hazards.md R272), and which states run the same attempt
(spec/41_protocol_decoder.md R136). -/

namespace Sys2Proof.Machine

/-- A command has ended: the phase is IDLE and DONE is 1 (R244). -/
abbrev CommandEnded (s : State) : Prop := s.phase = .idle ∧ s.done = true

/-- The coming edge completes the running command, as the spec gives its guards: a valid frame, or any outcome of a DECODE,
in VALIDATE (R195, R196); the end of SETTLE with no attempt left (R212). The fourth completion of R236, an ACQUIRE with
RETRY_BOUND = 0, is its own acceptance edge (R213). -/
abbrev AtCompletion (s : State) : Prop :=
  (s.phase = .validate ∧ (s.mode = .decode ∨
    (40#6 ≤ s.nbits ∧
      s.fb.b4.toNat = (s.fb.b0.toNat + s.fb.b1.toNat + s.fb.b2.toNat + s.fb.b3.toNat) % 256))) ∨
  (s.phase = .settle ∧ s.tSettle ≤ s.timer ∧ s.retryBound ≤ s.attempts)

/-- The line is driven Low in START_LOW and High in START_HIGH, and released in every other phase (R21). -/
abbrev LineInv (s : State) : Prop :=
  s.dqOe = decide (s.phase = .startLow ∨ s.phase = .startHigh) ∧
  s.dqO = decide (s.phase = .startHigh)

/-- The phase timer never exceeds the length of its phase (R131). -/
abbrev TimerInv (s : State) : Prop :=
  (s.phase = .startLow → s.timer ≤ s.tStartLow) ∧
  (s.phase = .startHigh → s.timer ≤ s.tStartHigh.setWidth 24) ∧
  (s.phase = .settle → s.timer ≤ s.tSettle)

/-- In CAPTURE the count is below the cap, and even windows track High (R50, R151, R152, R170). -/
abbrev WindowInv (s : State) : Prop :=
  s.phase = .capture →
    s.cnt ≤ 254#8 ∧ (s.prev = true ↔ s.win.toNat % 2 = 0)

/-- While capture runs, and in VALIDATE, one bit has been taken for each even window from 4 on that has ended, up to 40, and
no more windows have ended than MAX_WINDOWS (R152, R156, R170, R173). -/
abbrev BitCountInv (s : State) : Prop :=
  s.phase = .capture ∨ s.phase = .validate →
    s.win ≤ s.maxWindows ∧ s.nbits.toNat = min 40 ((s.win.toNat - 3) / 2)

/-- At most 40 bits are assembled (R38, R173), and while a command runs a byte that has taken n < 8 of its bits holds them
right-aligned, below `2 ^ n`, so that shifting the next one in drops none (R172). -/
abbrev FrameInv (s : State) : Prop :=
  s.nbits ≤ 40#6 ∧
    (s.phase ≠ .idle → ∀ j : Fin 5, (s.fb.byte j).toNat < 2 ^ (s.nbits.toNat - 8 * j))

/-- Until capture the frame is empty (R130, R136), and CAP_HIT is 0 until capture has ended (R36). -/
abbrev FreshInv (s : State) : Prop :=
  (s.phase = .startLow ∨ s.phase = .startHigh → s.nbits = 0#6 ∧ s.fb = Frame.zero) ∧
  (s.phase = .startLow ∨ s.phase = .startHigh ∨ s.phase = .capture → s.capHit = false)

/-- While a command runs, ATTEMPTS is exactly 1 for DECODE, which never settles, and 1 to RETRY_BOUND for ACQUIRE
(R39, R211). -/
abbrev AttemptsInv (s : State) : Prop :=
  s.phase ≠ .idle →
    (s.mode = .decode → s.attempts = 1#8 ∧ s.phase ≠ .settle) ∧
    (s.mode = .acquire → 1#8 ≤ s.attempts ∧ s.attempts ≤ s.retryBound)

/-- While a command runs no outcome shows (R34, R110); without a success the result registers read 0 (R46, R270); with one
they hold a frame with a valid checksum and its conversion (R33, R195, R197). -/
abbrev OutcomeInv (s : State) : Prop :=
  (s.phase ≠ .idle → s.done = false ∧ s.ok = false ∧ s.err = .none) ∧
  (s.ok = false → s.raw = Frame.zero ∧ s.humX10 = 0#16 ∧ s.tempX10 = 0#16) ∧
  (s.ok = true → s.err = .none ∧ 40#6 ≤ s.nbits ∧ s.raw.b4 = checksum s.raw ∧
    s.humX10 = humidityX10 s.raw ∧ s.tempX10 = temperatureX10 s.raw)

/-- Which command ends with which outcome code: INCOMPLETE with fewer than 40 bits and CHECKSUM_MISMATCH with 40 for
DECODE, EXHAUSTED for ACQUIRE (R34, R231). -/
abbrev ErrInv (s : State) : Prop :=
  (s.phase ≠ .idle → s.err = .none) ∧
  (s.err = .incomplete → s.mode = .decode ∧ s.nbits < 40#6) ∧
  (s.err = .checksumMismatch → s.mode = .decode ∧ 40#6 ≤ s.nbits) ∧
  (s.err = .exhausted → s.mode = .acquire)

/-- All the invariants together. -/
abbrev BlockInv (s : State) : Prop :=
  LineInv s ∧ TimerInv s ∧ WindowInv s ∧ BitCountInv s ∧ FrameInv s ∧ FreshInv s ∧ AttemptsInv s ∧
    OutcomeInv s ∧ ErrInv s

/-- The most cycles one attempt can take when every cycle has a tick strobe: L + H + 254 * M + 1 ticks and at most 4 cycles
without a counted tick (R156 f, R272). -/
def attemptCycles (s : State) : Nat :=
  s.tStartLow.toNat + s.tStartHigh.toNat + (254 * s.maxWindows.toNat + 1) + 4

/-- The most cycles one settle delay can take: S ticks and its leaving cycle (R272). -/
def settleCycles (s : State) : Nat := s.tSettle.toNat + 1

/-- The most cycles that can follow the running attempt: none for a DECODE; for an ACQUIRE its settle delay and the
attempts that are left, each with one (R215, R272). -/
def cyclesAfterAttempt (s : State) : Nat :=
  match s.mode with
  | .decode => 0
  | .acquire => settleCycles s + (s.retryBound.toNat - s.attempts.toNat) * (attemptCycles s + settleCycles s)

/-- The most tick strobes capture can still take (R156 f). -/
def captureTicksLeft (s : State) : Nat :=
  254 * (s.maxWindows.toNat - s.win.toNat) + 1 - s.cnt.toNat

/-- The most cycles the running command can still take when every cycle has a tick strobe (R232, R272). -/
def cyclesLeft (s : State) : Nat :=
  match s.phase with
  | .idle => 0
  | .startLow =>
      (s.tStartLow.toNat - s.timer.toNat + 1) + (s.tStartHigh.toNat + 1) +
        (254 * s.maxWindows.toNat + 2) + 1 + cyclesAfterAttempt s
  | .startHigh =>
      (s.tStartHigh.toNat - s.timer.toNat + 1) + (254 * s.maxWindows.toNat + 2) + 1 +
        cyclesAfterAttempt s
  | .capture => (captureTicksLeft s + 1) + 1 + cyclesAfterAttempt s
  | .validate => 1 + cyclesAfterAttempt s
  | .settle =>
      (s.tSettle.toNat - s.timer.toNat + 1) +
        (s.retryBound.toNat - s.attempts.toNat) * (attemptCycles s + settleCycles s)

/-- The six protocol parameters agree. -/
abbrev SameParams (a b : State) : Prop :=
  a.tStartLow = b.tStartLow ∧ a.tStartHigh = b.tStartHigh ∧ a.maxWindows = b.maxWindows ∧
  a.bitThreshold = b.bitThreshold ∧ a.retryBound = b.retryBound ∧ a.tSettle = b.tSettle

/-- The two states are at the same point of the same command: they agree on the parameters and on all that the sequencer
reads or writes, but for the line, the samples to come, DONE, REJ and IRQ_EN; and, outside CAPTURE, on everything but the
window elements, which EnterCapture clears (R136). -/
abbrev SameCommand (a b : State) : Prop :=
  SameParams a b ∧ a.phase = b.phase ∧ a.mode = b.mode ∧ a.timer = b.timer ∧
  (a.phase = .capture → a.win = b.win ∧ a.prev = b.prev ∧ a.cnt = b.cnt) ∧
  a.nbits = b.nbits ∧ a.fb = b.fb ∧ a.attempts = b.attempts ∧ a.capHit = b.capHit ∧
  a.ok = b.ok ∧ a.err = b.err ∧ a.raw = b.raw ∧ a.humX10 = b.humX10 ∧ a.tempX10 = b.tempX10

/-- The phase before and after one edge with `rst_n` = 1: a transition that exists (R135), or the phase is kept, as it can
be in every phase but VALIDATE, which lasts one cycle (R190). -/
def legalTransition : Phase → Phase → Bool
  | .idle, .startLow => true
  | .startLow, .startHigh => true
  | .startHigh, .capture => true
  | .capture, .validate => true
  | .validate, .idle => true
  | .validate, .settle => true
  | .settle, .startLow => true
  | .settle, .idle => true
  | .validate, .validate => false
  | p, q => p == q

end Sys2Proof.Machine
end

