-- ==== Sys2Proof/Certificates/Slice0/Obligations.lean ====
section
/-! DEFINITION. The statements for the provers. "A cycle" is one clock cycle; "with reset inactive" is `s.pins.rstN = true`.
`edge s` is the state after a cycle in which the host writes nothing; what it is, phase by phase, is stated under "The
sequencer" below, for every cycle with reset inactive and whatever the host presents in it. A frame is written
`t = { u with f := t.f, … }`: `t` equals `u` in every field not named. -/

open Sys2Proof Sys2Proof.Machine

/-! ## Encoding and decoding -/

/-- Decoding the word of a well-formed operation gives the operation back (R80, R89). -/
def Obligations.DecodeOfEncode : Prop :=
  ∀ i : Instr, i.wf = true → decode (encode i) = i

/-- Every 41-bit word names one well-formed operation, whose word it is (R89). -/
def Obligations.EncodeOfDecode : Prop :=
  ∀ w : TransactionWord, (decode w).wf = true ∧ encode (decode w) = w

/-- A word lies in the opcode table's row of the operation it decodes to, and in no other row. -/
def Obligations.WordLiesInOneTableRow : Prop :=
  ∀ w : TransactionWord, (tableRow (decode w)).holds w = true ∧
    ∀ i : Instr, (tableRow i).holds w = true → tableRow i = tableRow (decode w)

/-- The decode procedure, line by line (R89). -/
def Obligations.DecodeProcedure : Prop :=
  ∀ (addr : Offset) (wdata : Word),
    let off := addr &&& 0xFC#8
    let code := wdata &&& 0xF#32
    let low := wdata.extractLsb' 0 4
    let ignored := wdata.extractLsb' 4 28
    let w := transactionWord true addr wdata
    decode (transactionWord false addr wdata) = .rd addr wdata ∧
    (off = 0x04#8 → decode w = .wrCtrl addr wdata) ∧
    (off = 0x08#8 → code = 0#32 → decode w = .cmdNop addr ignored) ∧
    (off = 0x08#8 → code = 1#32 → decode w = .cmdAcquire addr ignored) ∧
    (off = 0x08#8 → code = 2#32 → decode w = .cmdDecode addr ignored) ∧
    (off = 0x08#8 → code = 3#32 → decode w = .cmdReserved3 addr ignored) ∧
    (off = 0x08#8 → 4#32 ≤ code → code ≤ 7#32 → decode w = .cmdReserved4To7 addr ignored low) ∧
    (off = 0x08#8 → 8#32 ≤ code → decode w = .cmdReserved8ToF addr ignored low) ∧
    (off = 0x0C#8 → decode w = .wrStatus addr wdata) ∧
    (off = 0x10#8 → decode w = .wrParamTStartLow addr wdata) ∧
    (off = 0x14#8 → decode w = .wrParamTStartHigh addr wdata) ∧
    (off = 0x18#8 → decode w = .wrParamMaxWindows addr wdata) ∧
    (off = 0x1C#8 → decode w = .wrParamBitThreshold addr wdata) ∧
    (off = 0x20#8 → decode w = .wrParamRetryBound addr wdata) ∧
    (off = 0x24#8 → decode w = .wrParamTSettle addr wdata) ∧
    (off = 0x00#8 → decode w = .wrIgnoredId addr wdata) ∧
    (off = 0x28#8 → decode w = .wrIgnoredRawLo addr wdata) ∧
    (off = 0x2C#8 → decode w = .wrIgnoredRawHi addr wdata) ∧
    (off = 0x30#8 → decode w = .wrIgnoredReading addr wdata) ∧
    (off = 0x34#8 → decode w = .wrIgnoredReserved34 addr wdata) ∧
    (off = 0x38#8 ∨ off = 0x3C#8 → decode w = .wrIgnoredReserved38To3C addr wdata) ∧
    (0x40#8 ≤ off → off ≤ 0x7C#8 → decode w = .wrIgnoredReserved40To7C addr wdata) ∧
    (0x80#8 ≤ off → decode w = .wrIgnoredReserved80ToFC addr wdata)

/-- A few transaction words of the spec's programs P1, P4 and P5 and of its vectors decode to the operations they are
written for. -/
def Obligations.SpecWordsDecode : Prop :=
  decode 0x00C00000000#41 = .rd 0x0C#8 0#32 ∧
  decode 0x10400000001#41 = .wrCtrl 0x04#8 1#32 ∧
  decode 0x10800000000#41 = .cmdNop 0x08#8 0#28 ∧
  decode 0x10800000001#41 = .cmdAcquire 0x08#8 0#28 ∧
  decode 0x10800000002#41 = .cmdDecode 0x08#8 0#28 ∧
  decode 0x10800000009#41 = .cmdReserved8ToF 0x08#8 0#28 9#4 ∧
  decode 0x10C00000022#41 = .wrStatus 0x0C#8 0x22#32 ∧
  decode 0x11C12345678#41 = .wrParamBitThreshold 0x1C#8 0x12345678#32 ∧
  decode 0x12401000000#41 = .wrParamTSettle 0x24#8 0x01000000#32 ∧
  decode 0x13012345678#41 = .wrIgnoredReading 0x30#8 0x12345678#32

/-- The pseudo-instructions stand for the transaction words of the table; SET writes its value at the register's offset, and
WAITDONE's loop ends on a value whose bit 1 is 1 (R91). -/
def Obligations.PseudoInstructionWords : Prop :=
  HostLine.nop.word = 0x10800000000#41 ∧ HostLine.acquire.word = 0x10800000001#41 ∧
  HostLine.decode.word = 0x10800000002#41 ∧ HostLine.irqOn.word = 0x10400000001#41 ∧
  HostLine.irqOff.word = 0x10400000000#41 ∧ HostLine.clrDone.word = 0x10C00000002#41 ∧
  HostLine.clrRej.word = 0x10C00000020#41 ∧ HostLine.clrAll.word = 0x10C00000022#41 ∧
  HostLine.waitDone.word = 0x00C00000000#41 ∧ (∀ v : Word, waitDoneEnds v = true ↔ v.getLsbD 1 = true) ∧
  ∀ v : Word,
    decode (HostLine.set .tStartLow v).word = .wrParamTStartLow 0x10#8 v ∧
    decode (HostLine.set .tStartHigh v).word = .wrParamTStartHigh 0x14#8 v ∧
    decode (HostLine.set .maxWindows v).word = .wrParamMaxWindows 0x18#8 v ∧
    decode (HostLine.set .bitThreshold v).word = .wrParamBitThreshold 0x1C#8 v ∧
    decode (HostLine.set .retryBound v).word = .wrParamRetryBound 0x20#8 v ∧
    decode (HostLine.set .tSettle v).word = .wrParamTSettle 0x24#8 v

/-! ## One step -/

/-- With reset inactive, a cycle with a transaction executes what its word decodes to, and nothing is added around it; a
cycle without one runs the sequencer alone (R80, R89, R101). -/
def Obligations.StepRunsTheDecodedTransaction : Prop :=
  ∀ s : State, s.pins.rstN = true →
    (s.pins.busSel = true → step s = exec (decode s.pins.word) s) ∧
    (s.pins.busSel = false → step s = .next (edge s))

/-- A presented transaction word is the one that the next step executes, from any state, reset included: withFetchWord is
the model's stand-in for the host (log 7). -/
def Obligations.PresentedWordIsExecuted : Prop :=
  ∀ (s : State) (w : TransactionWord),
    step (s.withFetchWord 41 w.toNat) = exec (decode w) (s.withFetchWord 41 w.toNat)

/-- No cycle faults and none is refused: the block raises no exception and never stalls (R101, R230). -/
def Obligations.EveryCycleHasANextState : Prop :=
  ∀ s : State, ∃ t, step s = .next t

/-! ## Register reads -/

/-- RD presents the register at `{addr[7:2], 0b00}` as it was before the edge; in a cycle with no transaction, or with a
write, `bus_rdata` is 0 (R100). -/
def Obligations.ReadPresentsTheRegister : Prop :=
  (∀ s : State, s.pins.rstN = true → ∃ t, step s = .next t ∧
    t.rdata = if s.pins.busSel = true ∧ s.pins.busWe = false then busRead s s.pins.busAddr else 0#32) ∧
  ∀ (s : State) (addr : Offset) (wdata : Word),
    let o := addr &&& 0xFC#8
    ∃ t, exec (.rd addr wdata) s = .next t ∧ t.rdata =
      if o = 0x00#8 then 0x44485431#32
      else if o = 0x04#8 then (BitVec.ofBool s.irqEn).setWidth 32
      else if o = 0x08#8 then 0#32
      else if o = 0x0C#8 then
        s.attempts ++ 0b00#2 ++ s.nbits ++ 0b00000#5 ++ s.phase.code ++ 0b0#1 ++ BitVec.ofBool s.capHit ++
          BitVec.ofBool s.rej ++ s.err.code ++ BitVec.ofBool s.ok ++ BitVec.ofBool s.done ++
          BitVec.ofBool (decide (s.phase ≠ .idle))
      else if o = 0x10#8 then s.tStartLow.setWidth 32
      else if o = 0x14#8 then s.tStartHigh.setWidth 32
      else if o = 0x18#8 then s.maxWindows.setWidth 32
      else if o = 0x1C#8 then s.bitThreshold.setWidth 32
      else if o = 0x20#8 then s.retryBound.setWidth 32
      else if o = 0x24#8 then s.tSettle.setWidth 32
      else if o = 0x28#8 then s.raw.b3 ++ s.raw.b2 ++ s.raw.b1 ++ s.raw.b0
      else if o = 0x2C#8 then s.raw.b4.setWidth 32
      else if o = 0x30#8 then s.tempX10 ++ s.humX10
      else 0#32

/-- A read changes no state: the cycle leaves what the cycle without it leaves, but for the value presented, and in IDLE
every register reads the same before and after it (R65). -/
def Obligations.ReadHasNoSideEffect : Prop :=
  ∀ (s : State) (addr : Offset) (wdata : Word),
    ∃ t, exec (.rd addr wdata) s = .next t ∧ t = { edge s with rdata := t.rdata } ∧
      (s.phase = .idle → ∀ a : Offset, busRead t a = busRead s a)

/-- `addr[1:0]` is ignored: a transaction acts on the register at `addr & 0xFC`, as a transaction at that offset would
(R63). -/
def Obligations.AddressLowBitsIgnored : Prop :=
  ∀ (s : State) (we : Bool) (addr : Offset) (wdata : Word),
    exec (decode (transactionWord we addr wdata)) s =
      exec (decode (transactionWord we (addr &&& 0xFC#8) wdata)) s

/-- Byte `k` of a register is bits `[8k+7:8k]`, at host address `P_BASE_ADDR + offset + k`; so RAW_LO holds raw byte 0 in
bits 7:0 and raw byte 3 in bits 31:24, and READING holds HUM_X10 in its low half (R64). -/
def Obligations.RegisterBytesAtHostAddresses : Prop :=
  (∀ (s : State) (r : Reg) (k : Nat), k < 4 →
    hostByte s (Config.pBaseAddr + r.offset.toNat + k) = some ((Reg.read s r).extractLsb' (8 * k) 8)) ∧
  ∀ s : State,
    (Reg.read s .rawLo).extractLsb' 0 8 = s.raw.b0 ∧ (Reg.read s .rawLo).extractLsb' 24 8 = s.raw.b3 ∧
    (Reg.read s .reading).extractLsb' 0 16 = s.humX10 ∧ (Reg.read s .reading).extractLsb' 16 16 = s.tempX10

/-- The fields of STATUS, bit by bit, with the phase and outcome codes (R30, R85, R86). -/
def Obligations.StatusFields : Prop :=
  ∀ s : State,
    let w := Reg.read s .status
    w.getLsbD 0 = decide (s.phase ≠ .idle) ∧ w.getLsbD 1 = s.done ∧ w.getLsbD 2 = s.ok ∧
    (w.extractLsb' 3 2).toNat =
      (match s.err with | .none => 0 | .incomplete => 1 | .checksumMismatch => 2 | .exhausted => 3) ∧
    w.getLsbD 5 = s.rej ∧ w.getLsbD 6 = s.capHit ∧ w.getLsbD 7 = false ∧
    (w.extractLsb' 8 3).toNat =
      (match s.phase with
        | .idle => 0 | .startLow => 1 | .startHigh => 2 | .capture => 3 | .validate => 4 | .settle => 5) ∧
    w.extractLsb' 11 5 = 0#5 ∧ w.extractLsb' 16 6 = s.nbits ∧ w.extractLsb' 22 2 = 0#2 ∧
    w.extractLsb' 24 8 = s.attempts

/-! ## Register writes -/

/-- WR_CTRL writes IRQ_EN, busy or idle, and nothing else (R102). -/
def Obligations.WrCtrlWritesIrqEn : Prop :=
  ∀ (s : State) (addr : Offset) (wdata : Word),
    exec (.wrCtrl addr wdata) s = .next { edge s with irqEn := wdata.getLsbD 0 }

/-- WR_STATUS clears DONE, unless the sequencer sets it at this edge, and REJ, each by a 1 in its bit, and changes nothing
else (R83, R103). "The sequencer sets it" is `setsDone`, the model's choice of log 17 in states with DONE = 1 while a
command runs, which no run reaches. -/
def Obligations.WrStatusClearsDoneAndRej : Prop :=
  ∀ (s : State) (addr : Offset) (wdata : Word),
    ∃ t, exec (.wrStatus addr wdata) s = .next t ∧
      t = { edge s with done := t.done, rej := t.rej } ∧
      (t.done = true ↔ setsDone s = true ∨ (s.done = true ∧ wdata.getLsbD 1 = false)) ∧
      (t.rej = true ↔ s.rej = true ∧ wdata.getLsbD 5 = false)

/-- A parameter write in IDLE stores the low bits of `wdata` and changes nothing else; while busy it sets REJ and the
parameter keeps its value (R104). -/
def Obligations.WrParamStoresOnlyWhenIdle : Prop :=
  ∀ (s : State) (addr : Offset) (wdata : Word),
    (s.phase = .idle →
      exec (.wrParamTStartLow addr wdata) s = .next { clocked s with tStartLow := wdata.setWidth 24 } ∧
      exec (.wrParamTStartHigh addr wdata) s = .next { clocked s with tStartHigh := wdata.setWidth 16 } ∧
      exec (.wrParamMaxWindows addr wdata) s = .next { clocked s with maxWindows := wdata.setWidth 8 } ∧
      exec (.wrParamBitThreshold addr wdata) s = .next { clocked s with bitThreshold := wdata.setWidth 8 } ∧
      exec (.wrParamRetryBound addr wdata) s = .next { clocked s with retryBound := wdata.setWidth 8 } ∧
      exec (.wrParamTSettle addr wdata) s = .next { clocked s with tSettle := wdata.setWidth 24 }) ∧
    (s.phase ≠ .idle →
      ∀ i ∈ [Instr.wrParamTStartLow addr wdata, .wrParamTStartHigh addr wdata, .wrParamMaxWindows addr wdata,
             .wrParamBitThreshold addr wdata, .wrParamRetryBound addr wdata, .wrParamTSettle addr wdata],
        exec i s = .next { edge s with rej := true })

/-- A parameter written in IDLE reads back zero-extended, its upper write bits dropped (R84). -/
def Obligations.ParametersReadBackTruncated : Prop :=
  ∀ (s : State) (addr : Offset) (wdata : Word), s.phase = .idle →
    (∃ t, exec (.wrParamTStartLow addr wdata) s = .next t ∧ busRead t 0x10#8 = wdata &&& 0x00FFFFFF#32) ∧
    (∃ t, exec (.wrParamTStartHigh addr wdata) s = .next t ∧ busRead t 0x14#8 = wdata &&& 0x0000FFFF#32) ∧
    (∃ t, exec (.wrParamMaxWindows addr wdata) s = .next t ∧ busRead t 0x18#8 = wdata &&& 0x000000FF#32) ∧
    (∃ t, exec (.wrParamBitThreshold addr wdata) s = .next t ∧ busRead t 0x1C#8 = wdata &&& 0x000000FF#32) ∧
    (∃ t, exec (.wrParamRetryBound addr wdata) s = .next t ∧ busRead t 0x20#8 = wdata &&& 0x000000FF#32) ∧
    (∃ t, exec (.wrParamTSettle addr wdata) s = .next t ∧ busRead t 0x24#8 = wdata &&& 0x00FFFFFF#32)

/-- A write to ID, RAW_LO, RAW_HI, READING or a reserved offset changes nothing, busy or idle, and sets no flag (R105);
nor does the command NOP (R106). -/
def Obligations.IgnoredWritesAndNopChangeNothing : Prop :=
  ∀ (s : State) (addr : Offset) (wdata : Word) (ignored : BitVec 28),
    ∀ i ∈ [Instr.wrIgnoredId addr wdata, .wrIgnoredRawLo addr wdata, .wrIgnoredRawHi addr wdata,
           .wrIgnoredReading addr wdata, .wrIgnoredReserved34 addr wdata,
           .wrIgnoredReserved38To3C addr wdata, .wrIgnoredReserved40To7C addr wdata,
           .wrIgnoredReserved80ToFC addr wdata, .cmdNop addr ignored],
      exec i s = .next (edge s) ∧ (s.phase = .idle → exec i s = .next (clocked s))

/-! ## Commands -/

/-- ACQUIRE in IDLE with RETRY_BOUND ≥ 1 is accepted: the last outcome and the result registers are cleared and attempt 1
starts with the line driven Low; while busy it sets REJ and the running command goes on (R107, R110, R130). -/
def Obligations.AcquireAcceptedOnlyWhenIdle : Prop :=
  ∀ (s : State) (addr : Offset) (ignored : BitVec 28),
    (s.phase = .idle → s.retryBound ≠ 0#8 →
      exec (.cmdAcquire addr ignored) s = .next { clocked s with
        mode := .acquire, done := false, ok := false, err := .none
        raw := ⟨0#8, 0#8, 0#8, 0#8, 0#8⟩, humX10 := 0#16, tempX10 := 0#16
        attempts := 1#8, fb := ⟨0#8, 0#8, 0#8, 0#8, 0#8⟩, nbits := 0#6, capHit := false
        timer := 0#24, phase := .startLow, dqOe := true, dqO := false }) ∧
    (s.phase ≠ .idle → exec (.cmdAcquire addr ignored) s = .next { edge s with rej := true })

/-- ACQUIRE in IDLE with RETRY_BOUND = 0 completes at its acceptance edge with EXHAUSTED and no attempt; the line is as it
was (R213). -/
def Obligations.AcquireWithBoundZeroExhaustsAtOnce : Prop :=
  ∀ (s : State) (addr : Offset) (ignored : BitVec 28), s.phase = .idle → s.retryBound = 0#8 →
    exec (.cmdAcquire addr ignored) s = .next { clocked s with
      mode := .acquire, done := true, ok := false, err := .exhausted
      raw := ⟨0#8, 0#8, 0#8, 0#8, 0#8⟩, humX10 := 0#16, tempX10 := 0#16
      attempts := 0#8, nbits := 0#6, capHit := false }

/-- DECODE in IDLE is accepted whatever RETRY_BOUND holds; while busy it sets REJ and the running command goes on (R108,
R110, R130). -/
def Obligations.DecodeAcceptedOnlyWhenIdle : Prop :=
  ∀ (s : State) (addr : Offset) (ignored : BitVec 28),
    (s.phase = .idle →
      exec (.cmdDecode addr ignored) s = .next { clocked s with
        mode := .decode, done := false, ok := false, err := .none
        raw := ⟨0#8, 0#8, 0#8, 0#8, 0#8⟩, humX10 := 0#16, tempX10 := 0#16
        attempts := 1#8, fb := ⟨0#8, 0#8, 0#8, 0#8, 0#8⟩, nbits := 0#6, capHit := false
        timer := 0#24, phase := .startLow, dqOe := true, dqO := false }) ∧
    (s.phase ≠ .idle → exec (.cmdDecode addr ignored) s = .next { edge s with rej := true })

/-- A reserved command code sets REJ, busy or idle, and changes nothing else (R109). -/
def Obligations.ReservedCodesAreRejected : Prop :=
  ∀ (s : State) (addr : Offset) (ignored : BitVec 28) (code : BitVec 4),
    ∀ i ∈ [Instr.cmdReserved3 addr ignored, .cmdReserved4To7 addr ignored code,
           .cmdReserved8ToF addr ignored code],
      exec i s = .next { edge s with rej := true }

/-! ## What the host cannot do, and when the flags change -/

/-- In IDLE a cycle without a host write only shifts the synchronizer; the last three fields are the model's own (R22,
R242). -/
def Obligations.IdleCycleOnlyShiftsTheSynchronizer : Prop :=
  ∀ s : State, s.phase = .idle →
    edge s = { s with sync1 := s.pins.dqI, sync2 := s.sync1,
                      inputs := s.inputs.tail, cycle := s.cycle + 1, rdata := 0#32 }

/-- Whatever the host presents while a command runs, the cycle leaves what the cycle without it leaves, but for IRQ_EN,
DONE, REJ and the value read (R74 c, R237). -/
def Obligations.HostCannotDisturbARunningCommand : Prop :=
  ∀ (i : Instr) (s : State), s.phase ≠ .idle →
    ∃ t, exec i s = .next t ∧
      t = { edge s with irqEn := t.irqEn, done := t.done, rej := t.rej, rdata := t.rdata }

/-- The parameter registers hold their values in every cycle of a command, and in IDLE each changes only by a write to it;
IRQ_EN changes only by WR_CTRL (R71, R74 c). -/
def Obligations.ConfigurationChangesOnlyByItsWrites : Prop :=
  ∀ (i : Instr) (s t : State), exec i s = .next t →
    (s.phase ≠ .idle → SameParams s t) ∧
    (t.tStartLow ≠ s.tStartLow → ∃ a w, i = .wrParamTStartLow a w) ∧
    (t.tStartHigh ≠ s.tStartHigh → ∃ a w, i = .wrParamTStartHigh a w) ∧
    (t.maxWindows ≠ s.maxWindows → ∃ a w, i = .wrParamMaxWindows a w) ∧
    (t.bitThreshold ≠ s.bitThreshold → ∃ a w, i = .wrParamBitThreshold a w) ∧
    (t.retryBound ≠ s.retryBound → ∃ a w, i = .wrParamRetryBound a w) ∧
    (t.tSettle ≠ s.tSettle → ∃ a w, i = .wrParamTSettle a w) ∧
    (t.irqEn ≠ s.irqEn → ∃ a w, i = .wrCtrl a w)

/-- REJ is set exactly by the rejected host actions and cleared only by a STATUS write with bit 5 = 1 and by reset (R35):
a cycle without a transaction leaves it, a reset edge clears it, and after an operation it is 1 exactly when the
operation is rejected, or it was 1 and is not cleared. -/
def Obligations.RejFollowsTheRejections : Prop :=
  (∀ s t : State, step s = .next t →
    (s.pins.rstN = false → t.rej = false) ∧
    (s.pins.rstN = true → s.pins.busSel = false → t.rej = s.rej)) ∧
  ∀ (i : Instr) (s t : State), exec i s = .next t →
    let busy := s.phase ≠ .idle
    let rejected := match i with
      | .cmdReserved3 _ _ | .cmdReserved4To7 _ _ _ | .cmdReserved8ToF _ _ _ => True
      | .cmdAcquire _ _ | .cmdDecode _ _ | .wrParamTStartLow _ _ | .wrParamTStartHigh _ _
      | .wrParamMaxWindows _ _ | .wrParamBitThreshold _ _ | .wrParamRetryBound _ _ | .wrParamTSettle _ _ => busy
      | _ => False
    let cleared := match i with
      | .wrStatus _ wdata => wdata.getLsbD 5 = true
      | _ => False
    (t.rej = true ↔ rejected ∨ (s.rej = true ∧ ¬ cleared))

/-- The edges at which the sequencer completes a command (R195, R196, R212): a valid frame, or any failure of a DECODE, in
VALIDATE, and the exit of SETTLE with no attempt left. At such an edge the phase becomes IDLE and DONE becomes 1
(R236), and from every phase but these the sequencer leaves DONE alone. In states with DONE = 1 while a command runs,
which no run reaches, "sets DONE" is the model's choice of log 17. -/
def Obligations.CompletionEdges : Prop :=
  ∀ s : State,
    (setsDone s = true ↔
      (s.phase = .validate ∧ (s.mode = .decode ∨
        (40#6 ≤ s.nbits ∧
          s.fb.b4.toNat = (s.fb.b0.toNat + s.fb.b1.toNat + s.fb.b2.toNat + s.fb.b3.toNat) % 256))) ∨
      (s.phase = .settle ∧ s.tSettle ≤ s.timer ∧ s.retryBound ≤ s.attempts)) ∧
    (setsDone s = true → (edge s).phase = .idle ∧ (edge s).done = true) ∧
    (setsDone s = false → (edge s).done = s.done)

/-- A completion is never lost: a running command ends exactly at the edges of `AtCompletion`, and there the phase becomes
IDLE, DONE becomes 1 and no parameter changes, whatever the host presents; a start command or a parameter write in that
cycle is judged against the phase before the edge and rejected (R74 a, b; R235 e). That DONE stays 1 against a clearing
write also where it is already 1, in states no run reaches, is the model's choice of log 17. -/
def Obligations.CompletionBeatsTheHostWrite : Prop :=
  ∀ s : State, s.pins.rstN = true → s.phase ≠ .idle →
    ∃ t, step s = .next t ∧ (t.phase = .idle ↔ AtCompletion s) ∧
      (AtCompletion s →
        t.done = true ∧ SameParams s t ∧
        (s.pins.busSel = true →
          (∃ a n, decode s.pins.word ∈ [Instr.cmdAcquire a n, .cmdDecode a n]) ∨
          (∃ a w, decode s.pins.word ∈
            [Instr.wrParamTStartLow a w, .wrParamTStartHigh a w, .wrParamMaxWindows a w,
             .wrParamBitThreshold a w, .wrParamRetryBound a w, .wrParamTSettle a w]) →
          t.rej = true))

/-- DONE is cleared only by a STATUS write with bit 1 = 1 and by the acceptance of ACQUIRE or DECODE (R32). -/
def Obligations.DoneIsSticky : Prop :=
  ∀ (i : Instr) (s t : State), exec i s = .next t → s.done = true → t.done = false →
    (∃ a w, i = .wrStatus a w ∧ w.getLsbD 1 = true) ∨
    (s.phase = .idle ∧ ∃ a n, i = .cmdAcquire a n ∨ i = .cmdDecode a n)

/-- The interrupt line (R233, R234): it is 1 exactly while IRQ_EN and DONE are. So in the cycle after a completion it is
IRQ_EN, whatever the host presents at that edge (also for an ACQUIRE with RETRY_BOUND = 0, which completes at its
acceptance); a DONE-clearing write lowers it, unless a command completes at that edge, and so does the acceptance of a
command that does not complete at once; a write of 0 to IRQ_EN lowers it and a write of 1 while DONE = 1 raises it; a
rejection, of a reserved code in any phase or of a start command or a parameter write while busy, raises no interrupt:
the line follows DONE alone. -/
def Obligations.InterruptLine : Prop :=
  (∀ s : State, irqO s = true ↔ s.irqEn = true ∧ s.done = true) ∧
  (∀ s : State, OutcomeInv s → s.pins.rstN = true → AtCompletion s →
    ∃ t, step s = .next t ∧ irqO t = t.irqEn) ∧
  (∀ (s : State) (addr : Offset) (wdata : Word), ¬ AtCompletion s → wdata.getLsbD 1 = true →
    ∃ t, exec (.wrStatus addr wdata) s = .next t ∧ irqO t = false) ∧
  (∀ (s : State) (addr : Offset) (wdata : Word),
    ∃ t, exec (.wrCtrl addr wdata) s = .next t ∧ (wdata.getLsbD 0 = false → irqO t = false) ∧
      (s.done = true → wdata.getLsbD 0 = true → irqO t = true)) ∧
  (∀ (s : State) (addr : Offset) (ignored : BitVec 28), s.phase = .idle →
    (∃ t, exec (.cmdDecode addr ignored) s = .next t ∧ irqO t = false) ∧
    (∃ t, exec (.cmdAcquire addr ignored) s = .next t ∧
      irqO t = (s.irqEn && decide (s.retryBound = 0#8)))) ∧
  (∀ (s : State) (addr : Offset) (wdata : Word) (ignored : BitVec 28) (code : BitVec 4),
    let rejectedWithoutInterrupt (i : Instr) := ∃ t, exec i s = .next t ∧ t.rej = true ∧
      (¬ AtCompletion s → irqO t = irqO s) ∧ (AtCompletion s → irqO t = s.irqEn)
    (∀ i ∈ [Instr.cmdReserved3 addr ignored, .cmdReserved4To7 addr ignored code,
            .cmdReserved8ToF addr ignored code],
      rejectedWithoutInterrupt i) ∧
    (s.phase ≠ .idle →
      ∀ i ∈ [Instr.cmdAcquire addr ignored, .cmdDecode addr ignored, .wrParamTStartLow addr wdata,
             .wrParamTStartHigh addr wdata, .wrParamMaxWindows addr wdata, .wrParamBitThreshold addr wdata,
             .wrParamRetryBound addr wdata, .wrParamTSettle addr wdata],
        rejectedWithoutInterrupt i))

/-- RAW_LO, RAW_HI and READING change only when a command presented in IDLE is accepted, to 0, and at a success edge, with
40 bits and a valid checksum, together, to the frame in the buffer and its conversion, and the command ends (R67, R110,
R192, R195). The conjunct `setsDone` rests on the model's choice of log 17 where DONE is already 1, in states no run reaches;
the rest does not. -/
def Obligations.ResultsChangeOnlyAtAcceptanceAndSuccess : Prop :=
  ∀ s t : State, s.pins.rstN = true → step s = .next t →
    (t.raw = s.raw ∧ t.humX10 = s.humX10 ∧ t.tempX10 = s.tempX10) ∨
    (s.phase = .idle ∧ s.pins.busSel = true ∧
      (∃ a n, decode s.pins.word = .cmdAcquire a n ∨ decode s.pins.word = .cmdDecode a n) ∧
      t.raw = ⟨0#8, 0#8, 0#8, 0#8, 0#8⟩ ∧ t.humX10 = 0#16 ∧ t.tempX10 = 0#16 ∧ t.ok = false) ∨
    (s.phase = .validate ∧ 40#6 ≤ s.nbits ∧
      s.fb.b4.toNat = (s.fb.b0.toNat + s.fb.b1.toNat + s.fb.b2.toNat + s.fb.b3.toNat) % 256 ∧
      setsDone s = true ∧ t.phase = .idle ∧ t.ok = true ∧ t.raw = s.fb ∧
      t.humX10 = humidityX10 s.fb ∧ t.tempX10 = temperatureX10 s.fb)

/-! ## The sequencer: every cycle with reset inactive, whatever the host presents -/

/-- START_LOW, one cycle (R131, R132): after T_START_LOW counted ticks the line goes High and START_HIGH begins, else a
tick is counted. -/
def Obligations.StartLowCycle : Prop :=
  ∀ s : State, s.pins.rstN = true → s.phase = .startLow →
    ∃ t, step s = .next t ∧
      t = { edge s with irqEn := t.irqEn, done := t.done, rej := t.rej, rdata := t.rdata } ∧
      edge s =
        if s.tStartLow ≤ s.timer then
          { clocked s with timer := 0#24, phase := .startHigh, dqO := true }
        else if s.pins.tickI = true then { clocked s with timer := s.timer + 1#24 }
        else clocked s

/-- START_HIGH, one cycle (R131, R133, R134): after T_START_HIGH counted ticks the line is released and capture begins in
window 0, which tracks High. -/
def Obligations.StartHighCycle : Prop :=
  ∀ s : State, s.pins.rstN = true → s.phase = .startHigh →
    ∃ t, step s = .next t ∧
      t = { edge s with irqEn := t.irqEn, done := t.done, rej := t.rej, rdata := t.rdata } ∧
      edge s =
        if s.tStartHigh.toNat ≤ s.timer.toNat then
          { clocked s with timer := 0#24, phase := .capture, dqOe := false, dqO := false,
                           win := 0#8, prev := true, cnt := 0#8 }
        else if s.pins.tickI = true then { clocked s with timer := s.timer + 1#24 }
        else clocked s

/-- CAPTURE, a cycle that takes no level change (R150, R151, R153, R154): the window limit comes first, then the tick's
sample; the 255th equal sample of a window ends capture with CAP_HIT. That a count is at most 254 before a sample is
kept by every step (WindowInv, in EveryStepKeepsTheInvariants). -/
def Obligations.CaptureCycleWithoutLevelChange : Prop :=
  ∀ s : State, s.pins.rstN = true → s.phase = .capture → s.cnt ≤ 254#8 →
    (s.win < s.maxWindows → s.pins.tickI = true → s.sync2 = s.prev) →
    ∃ t, step s = .next t ∧
      t = { edge s with irqEn := t.irqEn, done := t.done, rej := t.rej, rdata := t.rdata } ∧
      edge s =
        if s.maxWindows ≤ s.win then { clocked s with phase := .validate }
        else if s.pins.tickI = false then clocked s
        else if s.cnt = 254#8 then { clocked s with cnt := 255#8, capHit := true, phase := .validate }
        else { clocked s with cnt := s.cnt + 1#8 }

/-- CAPTURE, a cycle that takes a level change (R152, R170 to R173): the window ends, and if it is even, at least 4, and
fewer than 40 bits are assembled, its duration gives a bit, 1 exactly when it is above BIT_THRESHOLD, shifted into
byte `nbits >> 3` from the right. -/
def Obligations.CaptureCycleWithLevelChange : Prop :=
  ∀ s : State, s.pins.rstN = true → s.phase = .capture → s.win < s.maxWindows → s.pins.tickI = true →
    s.sync2 ≠ s.prev →
    ∃ t, step s = .next t ∧
      t = { edge s with irqEn := t.irqEn, done := t.done, rej := t.rej, rdata := t.rdata } ∧
      edge s = { clocked s with win := s.win + 1#8, prev := s.sync2, cnt := 1#8,
                                nbits := (edge s).nbits, fb := (edge s).fb } ∧
      (if 4 ≤ s.win.toNat ∧ s.win.toNat % 2 = 0 ∧ s.nbits.toNat < 40 then
        (edge s).nbits = s.nbits + 1#6 ∧
        ∀ j < 5, ((edge s).fb.byte j).toNat =
          if j = s.nbits.toNat / 8 then
            (2 * (s.fb.byte j).toNat + if s.cnt.toNat > s.bitThreshold.toNat then 1 else 0) % 256
          else (s.fb.byte j).toNat
      else (edge s).nbits = s.nbits ∧ (edge s).fb = s.fb)

/-- VALIDATE, a failed attempt (R190 to R192, R196): fewer than 40 bits is INCOMPLETE whatever the bytes hold, else a wrong
checksum is CHECKSUM_MISMATCH; a DECODE ends with the kind, and an ACQUIRE goes on to the settle delay. -/
def Obligations.ValidateFailure : Prop :=
  ∀ s : State, s.pins.rstN = true → s.phase = .validate →
    (s.nbits < 40#6 ∨
      s.fb.b4.toNat ≠ (s.fb.b0.toNat + s.fb.b1.toNat + s.fb.b2.toNat + s.fb.b3.toNat) % 256) →
    ∃ t, step s = .next t ∧
      t = { edge s with irqEn := t.irqEn, done := t.done, rej := t.rej, rdata := t.rdata } ∧
      edge s =
        match s.mode with
        | .decode => { clocked s with
            err := if s.nbits < 40#6 then .incomplete else .checksumMismatch, done := true, phase := .idle }
        | .acquire => { clocked s with timer := 0#24, phase := .settle }

/-- VALIDATE, a success (R192 to R195): the frame is committed with its humidity and its temperature in exact tenths, sign
and magnitude, and the command ends. -/
def Obligations.ValidateSuccess : Prop :=
  ∀ s : State, s.pins.rstN = true → s.phase = .validate → 40#6 ≤ s.nbits →
    s.fb.b4.toNat = (s.fb.b0.toNat + s.fb.b1.toNat + s.fb.b2.toNat + s.fb.b3.toNat) % 256 →
    ∃ t, step s = .next t ∧
      t = { edge s with irqEn := t.irqEn, done := t.done, rej := t.rej, rdata := t.rdata } ∧
      edge s = { clocked s with raw := s.fb, humX10 := t.humX10, tempX10 := t.tempX10, ok := true,
                                err := .none, done := true, phase := .idle } ∧
      t.humX10.toNat = 10 * s.fb.b0.toNat + s.fb.b1.toNat ∧
      t.tempX10.toInt =
        (if s.fb.b2.toNat ≥ 128 then -1 else 1) * (10 * (s.fb.b2.toNat % 128 : Nat) + s.fb.b3.toNat : Int)

/-- SETTLE, one cycle (R131, R211, R212): after T_SETTLE counted ticks the next attempt begins, or, with none left, the
command ends EXHAUSTED. -/
def Obligations.SettleCycle : Prop :=
  ∀ s : State, s.pins.rstN = true → s.phase = .settle →
    ∃ t, step s = .next t ∧
      t = { edge s with irqEn := t.irqEn, done := t.done, rej := t.rej, rdata := t.rdata } ∧
      edge s =
        if s.tSettle ≤ s.timer then
          if s.attempts < s.retryBound then
            { clocked s with attempts := s.attempts + 1#8, fb := ⟨0#8, 0#8, 0#8, 0#8, 0#8⟩, nbits := 0#6,
                             capHit := false, timer := 0#24, phase := .startLow, dqOe := true, dqO := false }
          else { clocked s with timer := 0#24, err := .exhausted, done := true, phase := .idle }
        else if s.pins.tickI = true then { clocked s with timer := s.timer + 1#24 }
        else clocked s

/-- The phases follow one another only as the spec says (R135). -/
def Obligations.OnlyLegalTransitions : Prop :=
  ∀ s t : State, s.pins.rstN = true → step s = .next t → legalTransition s.phase t.phase = true

/-- The synchronizer shifts at every edge with reset inactive, so that the sample of a cycle is the level of `dq_i` two
edges before (R22). -/
def Obligations.SampleLagsTwoCycles : Prop :=
  (∀ s t : State, s.pins.rstN = true → step s = .next t → t.sync1 = s.pins.dqI ∧ t.sync2 = s.sync1) ∧
  ∀ s t u : State, s.pins.rstN = true → t.pins.rstN = true → step s = .next t → step t = .next u →
    u.sync2 = s.pins.dqI

/-! ## Runs of the sequencer -/

/-- START_LOW counts exactly T_START_LOW tick strobes, whatever their pattern and whatever the host presents (R131, R132):
as long as fewer have come the phase goes on, counting them, and the first cycle after the last of them leaves it. -/
def Obligations.StartLowHoldsExactly : Prop :=
  ∀ (s : State) (k : Nat), s.phase = .startLow → s.timer = 0#24 → k ≤ s.inputs.length →
    (∀ p ∈ s.inputs, p.rstN = true) →
    (∀ j < k, ((s.inputs.take j).filter (·.tickI)).length < s.tStartLow.toNat) →
    ∃ t, Host.Core.run core k s = .next t ∧ t.phase = .startLow ∧ t.dqOe = s.dqOe ∧ t.dqO = s.dqO ∧
      t.timer.toNat = ((s.inputs.take k).filter (·.tickI)).length ∧
      (((s.inputs.take k).filter (·.tickI)).length = s.tStartLow.toNat → t.pins.rstN = true →
        ∃ u, step t = .next u ∧ u.phase = .startHigh ∧ u.timer = 0#24)

/-- The duration handed to the classifier is the number of samples of the window (R152, R156): `d` more samples at the
window's level count up to `cnt + d`, below the cap, and the sample that shows the change classifies that count. -/
def Obligations.WindowDurationIsItsRunLength : Prop :=
  ∀ (s : State) (d : Nat), s.phase = .capture → s.win < s.maxWindows → s.cnt.toNat + d ≤ 254 →
    (List.replicate d s.prev ++ [!s.prev]).foldl (fun u b => captureCycle true b u) s =
      { classify s.win (s.cnt + BitVec.ofNat 8 d) s with
          win := s.win + 1#8, prev := !s.prev, cnt := 1#8 }

/-- Forty bits assembled from an empty frame: bit `b_(8j+k)` is bit `7 - k` of byte `j`, and the count is 40 (R172,
R174). -/
def Obligations.FrameHoldsFortyBitsMsbFirst : Prop :=
  ∀ (s : State) (bits : List Bool), s.nbits = 0#6 → s.fb = ⟨0#8, 0#8, 0#8, 0#8, 0#8⟩ → bits.length = 40 →
    let t := bits.foldl (fun u b => assembleBit b u) s
    t.nbits = 40#6 ∧ ∀ j < 5, ∀ k < 8, (t.fb.byte j).getLsbD (7 - k) = bits.getD (8 * j + k) false

/-- Without tick strobes a timed phase that has ticks left, and capture before the window limit, never end: the block stays
busy, with no outcome, for as long as no strobe comes (R232). -/
def Obligations.NoTicksNoEnd : Prop :=
  ∀ (s : State) (n : Nat), n ≤ s.inputs.length → (∀ p ∈ s.inputs, p.rstN = true ∧ p.tickI = false) →
    (s.phase = .startLow ∧ s.timer < s.tStartLow ∨
      s.phase = .startHigh ∧ s.timer < s.tStartHigh.setWidth 24 ∨
      s.phase = .settle ∧ s.timer < s.tSettle ∨ s.phase = .capture ∧ s.win < s.maxWindows) →
    ∃ t, Host.Core.run core n s = .next t ∧ t.phase = s.phase ∧ SameCommand s t

/-- A tick strobe brings the end of the command nearer by at least one, and a cycle without a strobe never puts it further
off (R232, R272). -/
def Obligations.TicksBringTheEndNearer : Prop :=
  ∀ s t : State, BlockInv s → s.pins.rstN = true → s.phase ≠ .idle → step s = .next t →
    cyclesLeft t ≤ cyclesLeft s ∧ (s.pins.tickI = true → cyclesLeft t < cyclesLeft s)

/-- Given tick strobes, every command completes (R232): while reset stays inactive and every cycle has a strobe, the command
ends, with DONE = 1, within the bound of R272, whatever the line carries and whatever the host writes. -/
def Obligations.EveryCommandCompletes : Prop :=
  ∀ s : State, BlockInv s → s.phase ≠ .idle → cyclesLeft s ≤ s.inputs.length →
    (∀ p ∈ s.inputs, p.rstN = true ∧ p.tickI = true) →
    ∃ k ≤ cyclesLeft s, ∃ t, Host.Core.run core k s = .next t ∧ CommandEnded t

/-- The bound from acceptance (R272): one attempt for DECODE, at most RETRY_BOUND attempts and settle delays for ACQUIRE. -/
def Obligations.CommandBoundFromAcceptance : Prop :=
  ∀ (s : State) (addr : Offset) (ignored : BitVec 28), s.phase = .idle →
    (∃ t, exec (.cmdDecode addr ignored) s = .next t ∧
      cyclesLeft t ≤ s.tStartLow.toNat + s.tStartHigh.toNat + (254 * s.maxWindows.toNat + 1) + 4) ∧
    (∃ t, exec (.cmdAcquire addr ignored) s = .next t ∧
      cyclesLeft t ≤ s.retryBound.toNat *
        (s.tStartLow.toNat + s.tStartHigh.toNat + (254 * s.maxWindows.toNat + 1) + s.tSettle.toNat + 5))

/-! ## Reset -/

/-- The value of every element after reset (R53). -/
def Obligations.ResetValues : Prop :=
  let s := State.reset
  s.phase = .idle ∧ s.mode = .decode ∧ s.timer.toNat = 0 ∧ s.win.toNat = 0 ∧ s.prev = true ∧ s.cnt.toNat = 0 ∧
  s.nbits.toNat = 0 ∧ s.fb = ⟨0#8, 0#8, 0#8, 0#8, 0#8⟩ ∧ s.attempts.toNat = 0 ∧ s.capHit = false ∧
  s.done = false ∧ s.ok = false ∧ s.err = .none ∧ s.rej = false ∧ s.irqEn = false ∧
  s.tStartLow.toNat = 18000 ∧ s.tStartHigh.toNat = 40 ∧ s.maxWindows.toNat = 85 ∧
  s.bitThreshold.toNat = 16 ∧ s.retryBound.toNat = 5 ∧ s.tSettle.toNat = 100000 ∧
  s.raw = ⟨0#8, 0#8, 0#8, 0#8, 0#8⟩ ∧ s.humX10.toNat = 0 ∧ s.tempX10.toNat = 0 ∧
  s.dqOe = false ∧ s.dqO = false ∧ s.sync1 = true ∧ s.sync2 = true

/-- Reset wins: at an edge with `rst_n` = 0 every element of the block takes its reset value, in any phase and whatever the
bus presents, and only the model's own fields go on (R260, R235 a); that a read then returns the reset state's value and
that `bus_rdata` is 0 without one is the model's reading of R260 with R100 (log 6). -/
def Obligations.ResetWinsOverEverything : Prop :=
  ∀ s : State, s.pins.rstN = false →
    ∃ t, step s = .next t ∧
      t = { State.reset with inputs := s.inputs.tail, cycle := s.cycle + 1, rdata := t.rdata } ∧
      t.rdata = if s.pins.busSel = true ∧ s.pins.busWe = false then busRead State.reset s.pins.busAddr else 0#32

/-! ## Invariants -/

/-- The invariants hold after reset. -/
def Obligations.ResetMeetsTheInvariants : Prop := BlockInv State.reset

/-- The line is driven Low in START_LOW, High in START_HIGH and released in every other phase: every step keeps it so,
reset included (R21). -/
def Obligations.LineDriveFollowsThePhase : Prop :=
  ∀ s t : State, LineInv s → step s = .next t → LineInv t

/-- At most 40 bits, right-aligned in each byte, so that no shift drops a bit: every step keeps it so (R38, R172, R173). -/
def Obligations.FrameStaysRightAligned : Prop :=
  ∀ s t : State, FrameInv s → step s = .next t → FrameInv t

/-- ATTEMPTS is at most RETRY_BOUND for ACQUIRE and exactly 1 for DECODE while a command runs: every step keeps it so
(R39). -/
def Obligations.AttemptsStayBounded : Prop :=
  ∀ s t : State, AttemptsInv s → step s = .next t → AttemptsInv t

/-- No stale and no invalid Reading: without OK the result registers read 0, with OK they hold a frame whose checksum holds
and its conversion, and while a command runs no outcome shows: every step keeps it so (R33, R34, R197, R270). -/
def Obligations.ResultsAreZeroOrValid : Prop :=
  ∀ s t : State, OutcomeInv s → step s = .next t → OutcomeInv t

/-- All the invariants together are kept by every step, reset included. -/
def Obligations.EveryStepKeepsTheInvariants : Prop :=
  ∀ s t : State, BlockInv s → step s = .next t → BlockInv t

/-- With MAX_WINDOWS below 83 no attempt succeeds (R156 e): there are not enough windows for 40 bits. -/
def Obligations.TooFewWindowsNeverSucceed : Prop :=
  ∀ s t : State, BlockInv s → s.maxWindows < 83#8 → s.phase ≠ .idle → step s = .next t → t.ok = false

/-! ## What cannot be learnt, and what has no influence -/

/-- The frame buffer is hidden (R51, R197): two states that differ only in it differ only in it after any cycle, and present
the same read data, but for the cycle in which one of the two frames passes both checks. -/
def Obligations.RejectedFrameStaysHidden : Prop :=
  ∀ (a : State) (f : Frame) (a' b' : State),
    ¬ (a.phase = .validate ∧ 40#6 ≤ a.nbits ∧ (a.fb.b4 = checksum a.fb ∨ f.b4 = checksum f)) →
    step a = .next a' → step { a with fb := f } = .next b' →
    b' = { a' with fb := b'.fb } ∧ busRdata a = busRdata { a with fb := f }

/-- What a command does depends on the parameters, the ticks and the samples of capture alone (R136): two states at the same
point of the same command, given the same tick and, in CAPTURE, the same sample, are at the same point after the
cycle, whatever the host presents to each and whatever DONE, REJ, IRQ_EN, the line and the synchronizer hold. -/
def Obligations.CommandDependsOnTicksAndSamplesOnly : Prop :=
  ∀ a b a' b' : State, SameCommand a b → a.phase ≠ .idle → a.pins.rstN = true → b.pins.rstN = true →
    a.pins.tickI = b.pins.tickI → (a.phase = .capture → a.sync2 = b.sync2) →
    step a = .next a' → step b = .next b' → SameCommand a' b'

/-- Nothing of an earlier command reaches a new one but the parameters (R110, R136): two idle states with the same
parameters are at the same point of the same command once both have accepted it. -/
def Obligations.AcceptanceForgetsThePast : Prop :=
  ∀ (a b : State) (addr : Offset) (ignored : BitVec 28), a.phase = .idle → b.phase = .idle →
    SameParams a b →
    (∃ a' b', exec (.cmdDecode addr ignored) a = .next a' ∧ exec (.cmdDecode addr ignored) b = .next b' ∧
      SameCommand a' b') ∧
    (a.retryBound ≠ 0#8 →
      ∃ a' b', exec (.cmdAcquire addr ignored) a = .next a' ∧ exec (.cmdAcquire addr ignored) b = .next b' ∧
        SameCommand a' b')
end

