-- ==== Sys2Proof/Laws/Encoding.lean ====
section
/-! SUPPORT. The fields of a transaction word read back, and a word is the word of its fields (spec/30_encoding.md R80). -/

namespace Sys2Proof

theorem transactionWord_getLsbD (we : Bool) (addr : Offset) (wdata : Word) (i : Nat) :
    (transactionWord we addr wdata).getLsbD i =
      if i < 32 then wdata.getLsbD i
      else if i - 32 < 8 then addr.getLsbD (i - 32)
      else (BitVec.ofBool we).getLsbD (i - 32 - 8) := by
  refine (BitVec.getLsbD_append (x := BitVec.ofBool we ++ addr) (y := wdata) (i := i)).trans ?_
  rw [BitVec.getLsbD_append (x := BitVec.ofBool we) (y := addr)]

@[simp] theorem transactionWord_we (we : Bool) (addr : Offset) (wdata : Word) :
    (transactionWord we addr wdata).getLsbD 40 = we := by
  rw [transactionWord_getLsbD]
  cases we <;> rfl

@[simp] theorem transactionWord_addr (we : Bool) (addr : Offset) (wdata : Word) :
    (transactionWord we addr wdata).extractLsb' 32 8 = addr := by
  apply BitVec.eq_of_getLsbD_eq
  intro i hi
  rw [BitVec.getLsbD_extractLsb', transactionWord_getLsbD, if_neg (by omega), if_pos (by omega)]
  simp [hi]

@[simp] theorem transactionWord_wdata (we : Bool) (addr : Offset) (wdata : Word) :
    (transactionWord we addr wdata).extractLsb' 0 32 = wdata := by
  apply BitVec.eq_of_getLsbD_eq
  intro i hi
  rw [BitVec.getLsbD_extractLsb', transactionWord_getLsbD, if_pos (by omega)]
  simp [hi]

/-- A word is the word of its own fields. -/
theorem transactionWord_eta (w : TransactionWord) :
    transactionWord (w.getLsbD 40) (w.extractLsb' 32 8) (w.extractLsb' 0 32) = w := by
  apply BitVec.eq_of_getLsbD_eq
  intro i hi
  rw [transactionWord_getLsbD]
  split
  · next h => simp [h]
  · split
    · next h h' => simp only [BitVec.getLsbD_extractLsb', h', decide_true, Bool.true_and]; congr 1; omega
    · next h h' =>
      obtain rfl : i = 40 := by omega
      cases w.getLsbD 40 <;> rfl

/-- The bits of a masked word are the masked fields. -/
theorem transactionWord_and (we we' : Bool) (addr addr' : Offset) (wdata wdata' : Word) :
    transactionWord we addr wdata &&& transactionWord we' addr' wdata' =
      transactionWord (we && we') (addr &&& addr') (wdata &&& wdata') := by
  apply BitVec.eq_of_getLsbD_eq
  intro i hi
  rw [BitVec.getLsbD_and, transactionWord_getLsbD, transactionWord_getLsbD, transactionWord_getLsbD]
  split
  · simp
  · split
    · simp
    · next h h' =>
      obtain rfl : i = 40 := by omega
      cases we <;> cases we' <;> rfl

theorem cmdWdata_getLsbD (ignored : BitVec 28) (code : BitVec 4) (i : Nat) :
    (cmdWdata ignored code).getLsbD i = if i < 4 then code.getLsbD i else ignored.getLsbD (i - 4) :=
  BitVec.getLsbD_append (x := ignored) (y := code) (i := i)

@[simp] theorem cmdWdata_code (ignored : BitVec 28) (code : BitVec 4) :
    (cmdWdata ignored code).extractLsb' 0 4 = code := by
  apply BitVec.eq_of_getLsbD_eq
  intro i hi
  rw [BitVec.getLsbD_extractLsb', cmdWdata_getLsbD, if_pos (by omega)]
  simp [hi]

@[simp] theorem cmdWdata_ignored (ignored : BitVec 28) (code : BitVec 4) :
    (cmdWdata ignored code).extractLsb' 4 28 = ignored := by
  apply BitVec.eq_of_getLsbD_eq
  intro i hi
  rw [BitVec.getLsbD_extractLsb', cmdWdata_getLsbD, if_neg (by omega)]
  simp [hi]

/-- The data of a CMD write is the data of its own fields. -/
theorem cmdWdata_eta (wdata : Word) :
    cmdWdata (wdata.extractLsb' 4 28) (wdata.extractLsb' 0 4) = wdata := by
  apply BitVec.eq_of_getLsbD_eq
  intro i hi
  rw [cmdWdata_getLsbD]
  split
  · next h => simp [h]
  · next h =>
    have : i - 4 < 28 := by omega
    simp only [BitVec.getLsbD_extractLsb', this, decide_true, Bool.true_and]
    congr 1
    omega

/-- Masking the data of a CMD write with the code mask leaves the code. -/
theorem cmdWdata_and (ignored : BitVec 28) (code mask : BitVec 4) :
    cmdWdata ignored code &&& cmdWdata 0#28 mask = cmdWdata 0#28 (code &&& mask) := by
  apply BitVec.eq_of_getLsbD_eq
  intro i hi
  rw [BitVec.getLsbD_and, cmdWdata_getLsbD, cmdWdata_getLsbD, cmdWdata_getLsbD]
  split <;> simp

/-- Decoding reads the fields of the word (R89). -/
theorem decode_transactionWord (we : Bool) (addr : Offset) (wdata : Word) :
    decode (transactionWord we addr wdata) = if we then decodeWrite addr wdata else .rd addr wdata := by
  unfold decode
  rw [transactionWord_we, transactionWord_addr, transactionWord_wdata]

/-- The byte offset of a slot is four times its number (R60, R63). -/
theorem slotOf_toNat (addr : Offset) : (addr &&& 0xFC#8).toNat = 4 * (slotOf addr).toNat := by
  revert addr
  decide

end Sys2Proof
end

