-- ==== Sys2Proof/Laws/State.lean ====
section
/-! SUPPORT. The fields of the state after each shared update: one lemma per field per update, so that no proof unfolds a
record update. -/

namespace Sys2Proof.Machine

/-! A rejection sets REJ alone (R35). -/

@[simp] theorem setRej_phase (s : State) : (setRej s).phase = s.phase := rfl
@[simp] theorem setRej_mode (s : State) : (setRej s).mode = s.mode := rfl
@[simp] theorem setRej_timer (s : State) : (setRej s).timer = s.timer := rfl
@[simp] theorem setRej_win (s : State) : (setRej s).win = s.win := rfl
@[simp] theorem setRej_prev (s : State) : (setRej s).prev = s.prev := rfl
@[simp] theorem setRej_cnt (s : State) : (setRej s).cnt = s.cnt := rfl
@[simp] theorem setRej_nbits (s : State) : (setRej s).nbits = s.nbits := rfl
@[simp] theorem setRej_fb (s : State) : (setRej s).fb = s.fb := rfl
@[simp] theorem setRej_attempts (s : State) : (setRej s).attempts = s.attempts := rfl
@[simp] theorem setRej_capHit (s : State) : (setRej s).capHit = s.capHit := rfl
@[simp] theorem setRej_done (s : State) : (setRej s).done = s.done := rfl
@[simp] theorem setRej_ok (s : State) : (setRej s).ok = s.ok := rfl
@[simp] theorem setRej_err (s : State) : (setRej s).err = s.err := rfl
@[simp] theorem setRej_rej (s : State) : (setRej s).rej = true := rfl
@[simp] theorem setRej_irqEn (s : State) : (setRej s).irqEn = s.irqEn := rfl
@[simp] theorem setRej_tStartLow (s : State) : (setRej s).tStartLow = s.tStartLow := rfl
@[simp] theorem setRej_tStartHigh (s : State) : (setRej s).tStartHigh = s.tStartHigh := rfl
@[simp] theorem setRej_maxWindows (s : State) : (setRej s).maxWindows = s.maxWindows := rfl
@[simp] theorem setRej_bitThreshold (s : State) : (setRej s).bitThreshold = s.bitThreshold := rfl
@[simp] theorem setRej_retryBound (s : State) : (setRej s).retryBound = s.retryBound := rfl
@[simp] theorem setRej_tSettle (s : State) : (setRej s).tSettle = s.tSettle := rfl
@[simp] theorem setRej_raw (s : State) : (setRej s).raw = s.raw := rfl
@[simp] theorem setRej_humX10 (s : State) : (setRej s).humX10 = s.humX10 := rfl
@[simp] theorem setRej_tempX10 (s : State) : (setRej s).tempX10 = s.tempX10 := rfl
@[simp] theorem setRej_dqOe (s : State) : (setRej s).dqOe = s.dqOe := rfl
@[simp] theorem setRej_dqO (s : State) : (setRej s).dqO = s.dqO := rfl
@[simp] theorem setRej_sync1 (s : State) : (setRej s).sync1 = s.sync1 := rfl
@[simp] theorem setRej_sync2 (s : State) : (setRej s).sync2 = s.sync2 := rfl
@[simp] theorem setRej_inputs (s : State) : (setRej s).inputs = s.inputs := rfl
@[simp] theorem setRej_cycle (s : State) : (setRej s).cycle = s.cycle := rfl
@[simp] theorem setRej_rdata (s : State) : (setRej s).rdata = s.rdata := rfl

/-! `drive(L)` (R10). -/

@[simp] theorem drive_phase (level : Bool) (s : State) : (drive level s).phase = s.phase := rfl
@[simp] theorem drive_mode (level : Bool) (s : State) : (drive level s).mode = s.mode := rfl
@[simp] theorem drive_timer (level : Bool) (s : State) : (drive level s).timer = s.timer := rfl
@[simp] theorem drive_win (level : Bool) (s : State) : (drive level s).win = s.win := rfl
@[simp] theorem drive_prev (level : Bool) (s : State) : (drive level s).prev = s.prev := rfl
@[simp] theorem drive_cnt (level : Bool) (s : State) : (drive level s).cnt = s.cnt := rfl
@[simp] theorem drive_nbits (level : Bool) (s : State) : (drive level s).nbits = s.nbits := rfl
@[simp] theorem drive_fb (level : Bool) (s : State) : (drive level s).fb = s.fb := rfl
@[simp] theorem drive_attempts (level : Bool) (s : State) : (drive level s).attempts = s.attempts := rfl
@[simp] theorem drive_capHit (level : Bool) (s : State) : (drive level s).capHit = s.capHit := rfl
@[simp] theorem drive_done (level : Bool) (s : State) : (drive level s).done = s.done := rfl
@[simp] theorem drive_ok (level : Bool) (s : State) : (drive level s).ok = s.ok := rfl
@[simp] theorem drive_err (level : Bool) (s : State) : (drive level s).err = s.err := rfl
@[simp] theorem drive_rej (level : Bool) (s : State) : (drive level s).rej = s.rej := rfl
@[simp] theorem drive_irqEn (level : Bool) (s : State) : (drive level s).irqEn = s.irqEn := rfl
@[simp] theorem drive_tStartLow (level : Bool) (s : State) : (drive level s).tStartLow = s.tStartLow := rfl
@[simp] theorem drive_tStartHigh (level : Bool) (s : State) : (drive level s).tStartHigh = s.tStartHigh := rfl
@[simp] theorem drive_maxWindows (level : Bool) (s : State) : (drive level s).maxWindows = s.maxWindows := rfl
@[simp] theorem drive_bitThreshold (level : Bool) (s : State) : (drive level s).bitThreshold = s.bitThreshold := rfl
@[simp] theorem drive_retryBound (level : Bool) (s : State) : (drive level s).retryBound = s.retryBound := rfl
@[simp] theorem drive_tSettle (level : Bool) (s : State) : (drive level s).tSettle = s.tSettle := rfl
@[simp] theorem drive_raw (level : Bool) (s : State) : (drive level s).raw = s.raw := rfl
@[simp] theorem drive_humX10 (level : Bool) (s : State) : (drive level s).humX10 = s.humX10 := rfl
@[simp] theorem drive_tempX10 (level : Bool) (s : State) : (drive level s).tempX10 = s.tempX10 := rfl
@[simp] theorem drive_dqOe (level : Bool) (s : State) : (drive level s).dqOe = true := rfl
@[simp] theorem drive_dqO (level : Bool) (s : State) : (drive level s).dqO = level := rfl
@[simp] theorem drive_sync1 (level : Bool) (s : State) : (drive level s).sync1 = s.sync1 := rfl
@[simp] theorem drive_sync2 (level : Bool) (s : State) : (drive level s).sync2 = s.sync2 := rfl
@[simp] theorem drive_inputs (level : Bool) (s : State) : (drive level s).inputs = s.inputs := rfl
@[simp] theorem drive_cycle (level : Bool) (s : State) : (drive level s).cycle = s.cycle := rfl
@[simp] theorem drive_rdata (level : Bool) (s : State) : (drive level s).rdata = s.rdata := rfl

/-! `release()` (R10). -/

@[simp] theorem release_phase (s : State) : (release s).phase = s.phase := rfl
@[simp] theorem release_mode (s : State) : (release s).mode = s.mode := rfl
@[simp] theorem release_timer (s : State) : (release s).timer = s.timer := rfl
@[simp] theorem release_win (s : State) : (release s).win = s.win := rfl
@[simp] theorem release_prev (s : State) : (release s).prev = s.prev := rfl
@[simp] theorem release_cnt (s : State) : (release s).cnt = s.cnt := rfl
@[simp] theorem release_nbits (s : State) : (release s).nbits = s.nbits := rfl
@[simp] theorem release_fb (s : State) : (release s).fb = s.fb := rfl
@[simp] theorem release_attempts (s : State) : (release s).attempts = s.attempts := rfl
@[simp] theorem release_capHit (s : State) : (release s).capHit = s.capHit := rfl
@[simp] theorem release_done (s : State) : (release s).done = s.done := rfl
@[simp] theorem release_ok (s : State) : (release s).ok = s.ok := rfl
@[simp] theorem release_err (s : State) : (release s).err = s.err := rfl
@[simp] theorem release_rej (s : State) : (release s).rej = s.rej := rfl
@[simp] theorem release_irqEn (s : State) : (release s).irqEn = s.irqEn := rfl
@[simp] theorem release_tStartLow (s : State) : (release s).tStartLow = s.tStartLow := rfl
@[simp] theorem release_tStartHigh (s : State) : (release s).tStartHigh = s.tStartHigh := rfl
@[simp] theorem release_maxWindows (s : State) : (release s).maxWindows = s.maxWindows := rfl
@[simp] theorem release_bitThreshold (s : State) : (release s).bitThreshold = s.bitThreshold := rfl
@[simp] theorem release_retryBound (s : State) : (release s).retryBound = s.retryBound := rfl
@[simp] theorem release_tSettle (s : State) : (release s).tSettle = s.tSettle := rfl
@[simp] theorem release_raw (s : State) : (release s).raw = s.raw := rfl
@[simp] theorem release_humX10 (s : State) : (release s).humX10 = s.humX10 := rfl
@[simp] theorem release_tempX10 (s : State) : (release s).tempX10 = s.tempX10 := rfl
@[simp] theorem release_dqOe (s : State) : (release s).dqOe = false := rfl
@[simp] theorem release_dqO (s : State) : (release s).dqO = false := rfl
@[simp] theorem release_sync1 (s : State) : (release s).sync1 = s.sync1 := rfl
@[simp] theorem release_sync2 (s : State) : (release s).sync2 = s.sync2 := rfl
@[simp] theorem release_inputs (s : State) : (release s).inputs = s.inputs := rfl
@[simp] theorem release_cycle (s : State) : (release s).cycle = s.cycle := rfl
@[simp] theorem release_rdata (s : State) : (release s).rdata = s.rdata := rfl

/-! A completion (R236). -/

@[simp] theorem completeCommand_phase (outcome : Err) (s : State) : (completeCommand outcome s).phase = .idle := rfl
@[simp] theorem completeCommand_mode (outcome : Err) (s : State) : (completeCommand outcome s).mode = s.mode := rfl
@[simp] theorem completeCommand_timer (outcome : Err) (s : State) : (completeCommand outcome s).timer = s.timer := rfl
@[simp] theorem completeCommand_win (outcome : Err) (s : State) : (completeCommand outcome s).win = s.win := rfl
@[simp] theorem completeCommand_prev (outcome : Err) (s : State) : (completeCommand outcome s).prev = s.prev := rfl
@[simp] theorem completeCommand_cnt (outcome : Err) (s : State) : (completeCommand outcome s).cnt = s.cnt := rfl
@[simp] theorem completeCommand_nbits (outcome : Err) (s : State) : (completeCommand outcome s).nbits = s.nbits := rfl
@[simp] theorem completeCommand_fb (outcome : Err) (s : State) : (completeCommand outcome s).fb = s.fb := rfl
@[simp] theorem completeCommand_attempts (outcome : Err) (s : State) : (completeCommand outcome s).attempts = s.attempts := rfl
@[simp] theorem completeCommand_capHit (outcome : Err) (s : State) : (completeCommand outcome s).capHit = s.capHit := rfl
@[simp] theorem completeCommand_done (outcome : Err) (s : State) : (completeCommand outcome s).done = true := rfl
@[simp] theorem completeCommand_ok (outcome : Err) (s : State) : (completeCommand outcome s).ok = s.ok := rfl
@[simp] theorem completeCommand_err (outcome : Err) (s : State) : (completeCommand outcome s).err = outcome := rfl
@[simp] theorem completeCommand_rej (outcome : Err) (s : State) : (completeCommand outcome s).rej = s.rej := rfl
@[simp] theorem completeCommand_irqEn (outcome : Err) (s : State) : (completeCommand outcome s).irqEn = s.irqEn := rfl
@[simp] theorem completeCommand_tStartLow (outcome : Err) (s : State) : (completeCommand outcome s).tStartLow = s.tStartLow := rfl
@[simp] theorem completeCommand_tStartHigh (outcome : Err) (s : State) : (completeCommand outcome s).tStartHigh = s.tStartHigh := rfl
@[simp] theorem completeCommand_maxWindows (outcome : Err) (s : State) : (completeCommand outcome s).maxWindows = s.maxWindows := rfl
@[simp] theorem completeCommand_bitThreshold (outcome : Err) (s : State) : (completeCommand outcome s).bitThreshold = s.bitThreshold := rfl
@[simp] theorem completeCommand_retryBound (outcome : Err) (s : State) : (completeCommand outcome s).retryBound = s.retryBound := rfl
@[simp] theorem completeCommand_tSettle (outcome : Err) (s : State) : (completeCommand outcome s).tSettle = s.tSettle := rfl
@[simp] theorem completeCommand_raw (outcome : Err) (s : State) : (completeCommand outcome s).raw = s.raw := rfl
@[simp] theorem completeCommand_humX10 (outcome : Err) (s : State) : (completeCommand outcome s).humX10 = s.humX10 := rfl
@[simp] theorem completeCommand_tempX10 (outcome : Err) (s : State) : (completeCommand outcome s).tempX10 = s.tempX10 := rfl
@[simp] theorem completeCommand_dqOe (outcome : Err) (s : State) : (completeCommand outcome s).dqOe = s.dqOe := rfl
@[simp] theorem completeCommand_dqO (outcome : Err) (s : State) : (completeCommand outcome s).dqO = s.dqO := rfl
@[simp] theorem completeCommand_sync1 (outcome : Err) (s : State) : (completeCommand outcome s).sync1 = s.sync1 := rfl
@[simp] theorem completeCommand_sync2 (outcome : Err) (s : State) : (completeCommand outcome s).sync2 = s.sync2 := rfl
@[simp] theorem completeCommand_inputs (outcome : Err) (s : State) : (completeCommand outcome s).inputs = s.inputs := rfl
@[simp] theorem completeCommand_cycle (outcome : Err) (s : State) : (completeCommand outcome s).cycle = s.cycle := rfl
@[simp] theorem completeCommand_rdata (outcome : Err) (s : State) : (completeCommand outcome s).rdata = s.rdata := rfl

/-! The outcome cleared at acceptance (R110). -/

@[simp] theorem clearOutcome_phase (s : State) : (clearOutcome s).phase = s.phase := rfl
@[simp] theorem clearOutcome_mode (s : State) : (clearOutcome s).mode = s.mode := rfl
@[simp] theorem clearOutcome_timer (s : State) : (clearOutcome s).timer = s.timer := rfl
@[simp] theorem clearOutcome_win (s : State) : (clearOutcome s).win = s.win := rfl
@[simp] theorem clearOutcome_prev (s : State) : (clearOutcome s).prev = s.prev := rfl
@[simp] theorem clearOutcome_cnt (s : State) : (clearOutcome s).cnt = s.cnt := rfl
@[simp] theorem clearOutcome_nbits (s : State) : (clearOutcome s).nbits = s.nbits := rfl
@[simp] theorem clearOutcome_fb (s : State) : (clearOutcome s).fb = s.fb := rfl
@[simp] theorem clearOutcome_attempts (s : State) : (clearOutcome s).attempts = s.attempts := rfl
@[simp] theorem clearOutcome_capHit (s : State) : (clearOutcome s).capHit = s.capHit := rfl
@[simp] theorem clearOutcome_done (s : State) : (clearOutcome s).done = false := rfl
@[simp] theorem clearOutcome_ok (s : State) : (clearOutcome s).ok = false := rfl
@[simp] theorem clearOutcome_err (s : State) : (clearOutcome s).err = .none := rfl
@[simp] theorem clearOutcome_rej (s : State) : (clearOutcome s).rej = s.rej := rfl
@[simp] theorem clearOutcome_irqEn (s : State) : (clearOutcome s).irqEn = s.irqEn := rfl
@[simp] theorem clearOutcome_tStartLow (s : State) : (clearOutcome s).tStartLow = s.tStartLow := rfl
@[simp] theorem clearOutcome_tStartHigh (s : State) : (clearOutcome s).tStartHigh = s.tStartHigh := rfl
@[simp] theorem clearOutcome_maxWindows (s : State) : (clearOutcome s).maxWindows = s.maxWindows := rfl
@[simp] theorem clearOutcome_bitThreshold (s : State) : (clearOutcome s).bitThreshold = s.bitThreshold := rfl
@[simp] theorem clearOutcome_retryBound (s : State) : (clearOutcome s).retryBound = s.retryBound := rfl
@[simp] theorem clearOutcome_tSettle (s : State) : (clearOutcome s).tSettle = s.tSettle := rfl
@[simp] theorem clearOutcome_raw (s : State) : (clearOutcome s).raw = .zero := rfl
@[simp] theorem clearOutcome_humX10 (s : State) : (clearOutcome s).humX10 = 0#16 := rfl
@[simp] theorem clearOutcome_tempX10 (s : State) : (clearOutcome s).tempX10 = 0#16 := rfl
@[simp] theorem clearOutcome_dqOe (s : State) : (clearOutcome s).dqOe = s.dqOe := rfl
@[simp] theorem clearOutcome_dqO (s : State) : (clearOutcome s).dqO = s.dqO := rfl
@[simp] theorem clearOutcome_sync1 (s : State) : (clearOutcome s).sync1 = s.sync1 := rfl
@[simp] theorem clearOutcome_sync2 (s : State) : (clearOutcome s).sync2 = s.sync2 := rfl
@[simp] theorem clearOutcome_inputs (s : State) : (clearOutcome s).inputs = s.inputs := rfl
@[simp] theorem clearOutcome_cycle (s : State) : (clearOutcome s).cycle = s.cycle := rfl
@[simp] theorem clearOutcome_rdata (s : State) : (clearOutcome s).rdata = s.rdata := rfl

/-! What every edge does (R22). -/

@[simp] theorem clocked_phase (s : State) : (clocked s).phase = s.phase := rfl
@[simp] theorem clocked_mode (s : State) : (clocked s).mode = s.mode := rfl
@[simp] theorem clocked_timer (s : State) : (clocked s).timer = s.timer := rfl
@[simp] theorem clocked_win (s : State) : (clocked s).win = s.win := rfl
@[simp] theorem clocked_prev (s : State) : (clocked s).prev = s.prev := rfl
@[simp] theorem clocked_cnt (s : State) : (clocked s).cnt = s.cnt := rfl
@[simp] theorem clocked_nbits (s : State) : (clocked s).nbits = s.nbits := rfl
@[simp] theorem clocked_fb (s : State) : (clocked s).fb = s.fb := rfl
@[simp] theorem clocked_attempts (s : State) : (clocked s).attempts = s.attempts := rfl
@[simp] theorem clocked_capHit (s : State) : (clocked s).capHit = s.capHit := rfl
@[simp] theorem clocked_done (s : State) : (clocked s).done = s.done := rfl
@[simp] theorem clocked_ok (s : State) : (clocked s).ok = s.ok := rfl
@[simp] theorem clocked_err (s : State) : (clocked s).err = s.err := rfl
@[simp] theorem clocked_rej (s : State) : (clocked s).rej = s.rej := rfl
@[simp] theorem clocked_irqEn (s : State) : (clocked s).irqEn = s.irqEn := rfl
@[simp] theorem clocked_tStartLow (s : State) : (clocked s).tStartLow = s.tStartLow := rfl
@[simp] theorem clocked_tStartHigh (s : State) : (clocked s).tStartHigh = s.tStartHigh := rfl
@[simp] theorem clocked_maxWindows (s : State) : (clocked s).maxWindows = s.maxWindows := rfl
@[simp] theorem clocked_bitThreshold (s : State) : (clocked s).bitThreshold = s.bitThreshold := rfl
@[simp] theorem clocked_retryBound (s : State) : (clocked s).retryBound = s.retryBound := rfl
@[simp] theorem clocked_tSettle (s : State) : (clocked s).tSettle = s.tSettle := rfl
@[simp] theorem clocked_raw (s : State) : (clocked s).raw = s.raw := rfl
@[simp] theorem clocked_humX10 (s : State) : (clocked s).humX10 = s.humX10 := rfl
@[simp] theorem clocked_tempX10 (s : State) : (clocked s).tempX10 = s.tempX10 := rfl
@[simp] theorem clocked_dqOe (s : State) : (clocked s).dqOe = s.dqOe := rfl
@[simp] theorem clocked_dqO (s : State) : (clocked s).dqO = s.dqO := rfl
@[simp] theorem clocked_sync1 (s : State) : (clocked s).sync1 = s.pins.dqI := rfl
@[simp] theorem clocked_sync2 (s : State) : (clocked s).sync2 = s.sync1 := rfl
@[simp] theorem clocked_inputs (s : State) : (clocked s).inputs = s.inputs.tail := rfl
@[simp] theorem clocked_cycle (s : State) : (clocked s).cycle = s.cycle + 1 := rfl
@[simp] theorem clocked_rdata (s : State) : (clocked s).rdata = 0#32 := rfl

/-! `BeginAttempt(k)` (R130). -/

@[simp] theorem beginAttempt_phase (k : BitVec 8) (s : State) : (beginAttempt k s).phase = .startLow := rfl
@[simp] theorem beginAttempt_mode (k : BitVec 8) (s : State) : (beginAttempt k s).mode = s.mode := rfl
@[simp] theorem beginAttempt_timer (k : BitVec 8) (s : State) : (beginAttempt k s).timer = 0#24 := rfl
@[simp] theorem beginAttempt_win (k : BitVec 8) (s : State) : (beginAttempt k s).win = s.win := rfl
@[simp] theorem beginAttempt_prev (k : BitVec 8) (s : State) : (beginAttempt k s).prev = s.prev := rfl
@[simp] theorem beginAttempt_cnt (k : BitVec 8) (s : State) : (beginAttempt k s).cnt = s.cnt := rfl
@[simp] theorem beginAttempt_nbits (k : BitVec 8) (s : State) : (beginAttempt k s).nbits = 0#6 := rfl
@[simp] theorem beginAttempt_fb (k : BitVec 8) (s : State) : (beginAttempt k s).fb = .zero := rfl
@[simp] theorem beginAttempt_attempts (k : BitVec 8) (s : State) : (beginAttempt k s).attempts = k := rfl
@[simp] theorem beginAttempt_capHit (k : BitVec 8) (s : State) : (beginAttempt k s).capHit = false := rfl
@[simp] theorem beginAttempt_done (k : BitVec 8) (s : State) : (beginAttempt k s).done = s.done := rfl
@[simp] theorem beginAttempt_ok (k : BitVec 8) (s : State) : (beginAttempt k s).ok = s.ok := rfl
@[simp] theorem beginAttempt_err (k : BitVec 8) (s : State) : (beginAttempt k s).err = s.err := rfl
@[simp] theorem beginAttempt_rej (k : BitVec 8) (s : State) : (beginAttempt k s).rej = s.rej := rfl
@[simp] theorem beginAttempt_irqEn (k : BitVec 8) (s : State) : (beginAttempt k s).irqEn = s.irqEn := rfl
@[simp] theorem beginAttempt_tStartLow (k : BitVec 8) (s : State) : (beginAttempt k s).tStartLow = s.tStartLow := rfl
@[simp] theorem beginAttempt_tStartHigh (k : BitVec 8) (s : State) : (beginAttempt k s).tStartHigh = s.tStartHigh := rfl
@[simp] theorem beginAttempt_maxWindows (k : BitVec 8) (s : State) : (beginAttempt k s).maxWindows = s.maxWindows := rfl
@[simp] theorem beginAttempt_bitThreshold (k : BitVec 8) (s : State) : (beginAttempt k s).bitThreshold = s.bitThreshold := rfl
@[simp] theorem beginAttempt_retryBound (k : BitVec 8) (s : State) : (beginAttempt k s).retryBound = s.retryBound := rfl
@[simp] theorem beginAttempt_tSettle (k : BitVec 8) (s : State) : (beginAttempt k s).tSettle = s.tSettle := rfl
@[simp] theorem beginAttempt_raw (k : BitVec 8) (s : State) : (beginAttempt k s).raw = s.raw := rfl
@[simp] theorem beginAttempt_humX10 (k : BitVec 8) (s : State) : (beginAttempt k s).humX10 = s.humX10 := rfl
@[simp] theorem beginAttempt_tempX10 (k : BitVec 8) (s : State) : (beginAttempt k s).tempX10 = s.tempX10 := rfl
@[simp] theorem beginAttempt_dqOe (k : BitVec 8) (s : State) : (beginAttempt k s).dqOe = true := rfl
@[simp] theorem beginAttempt_dqO (k : BitVec 8) (s : State) : (beginAttempt k s).dqO = false := rfl
@[simp] theorem beginAttempt_sync1 (k : BitVec 8) (s : State) : (beginAttempt k s).sync1 = s.sync1 := rfl
@[simp] theorem beginAttempt_sync2 (k : BitVec 8) (s : State) : (beginAttempt k s).sync2 = s.sync2 := rfl
@[simp] theorem beginAttempt_inputs (k : BitVec 8) (s : State) : (beginAttempt k s).inputs = s.inputs := rfl
@[simp] theorem beginAttempt_cycle (k : BitVec 8) (s : State) : (beginAttempt k s).cycle = s.cycle := rfl
@[simp] theorem beginAttempt_rdata (k : BitVec 8) (s : State) : (beginAttempt k s).rdata = s.rdata := rfl

/-! `EnterCapture()` (R134). -/

@[simp] theorem enterCapture_phase (s : State) : (enterCapture s).phase = .capture := rfl
@[simp] theorem enterCapture_mode (s : State) : (enterCapture s).mode = s.mode := rfl
@[simp] theorem enterCapture_timer (s : State) : (enterCapture s).timer = s.timer := rfl
@[simp] theorem enterCapture_win (s : State) : (enterCapture s).win = 0#8 := rfl
@[simp] theorem enterCapture_prev (s : State) : (enterCapture s).prev = true := rfl
@[simp] theorem enterCapture_cnt (s : State) : (enterCapture s).cnt = 0#8 := rfl
@[simp] theorem enterCapture_nbits (s : State) : (enterCapture s).nbits = s.nbits := rfl
@[simp] theorem enterCapture_fb (s : State) : (enterCapture s).fb = s.fb := rfl
@[simp] theorem enterCapture_attempts (s : State) : (enterCapture s).attempts = s.attempts := rfl
@[simp] theorem enterCapture_capHit (s : State) : (enterCapture s).capHit = s.capHit := rfl
@[simp] theorem enterCapture_done (s : State) : (enterCapture s).done = s.done := rfl
@[simp] theorem enterCapture_ok (s : State) : (enterCapture s).ok = s.ok := rfl
@[simp] theorem enterCapture_err (s : State) : (enterCapture s).err = s.err := rfl
@[simp] theorem enterCapture_rej (s : State) : (enterCapture s).rej = s.rej := rfl
@[simp] theorem enterCapture_irqEn (s : State) : (enterCapture s).irqEn = s.irqEn := rfl
@[simp] theorem enterCapture_tStartLow (s : State) : (enterCapture s).tStartLow = s.tStartLow := rfl
@[simp] theorem enterCapture_tStartHigh (s : State) : (enterCapture s).tStartHigh = s.tStartHigh := rfl
@[simp] theorem enterCapture_maxWindows (s : State) : (enterCapture s).maxWindows = s.maxWindows := rfl
@[simp] theorem enterCapture_bitThreshold (s : State) : (enterCapture s).bitThreshold = s.bitThreshold := rfl
@[simp] theorem enterCapture_retryBound (s : State) : (enterCapture s).retryBound = s.retryBound := rfl
@[simp] theorem enterCapture_tSettle (s : State) : (enterCapture s).tSettle = s.tSettle := rfl
@[simp] theorem enterCapture_raw (s : State) : (enterCapture s).raw = s.raw := rfl
@[simp] theorem enterCapture_humX10 (s : State) : (enterCapture s).humX10 = s.humX10 := rfl
@[simp] theorem enterCapture_tempX10 (s : State) : (enterCapture s).tempX10 = s.tempX10 := rfl
@[simp] theorem enterCapture_dqOe (s : State) : (enterCapture s).dqOe = false := rfl
@[simp] theorem enterCapture_dqO (s : State) : (enterCapture s).dqO = false := rfl
@[simp] theorem enterCapture_sync1 (s : State) : (enterCapture s).sync1 = s.sync1 := rfl
@[simp] theorem enterCapture_sync2 (s : State) : (enterCapture s).sync2 = s.sync2 := rfl
@[simp] theorem enterCapture_inputs (s : State) : (enterCapture s).inputs = s.inputs := rfl
@[simp] theorem enterCapture_cycle (s : State) : (enterCapture s).cycle = s.cycle := rfl
@[simp] theorem enterCapture_rdata (s : State) : (enterCapture s).rdata = s.rdata := rfl

end Sys2Proof.Machine
end

