-- ==== Sys2Proof/Laws/Exec.lean ====
section
/-! SUPPORT. Each operation as its shared operation: what exec answers, arm by arm. -/

namespace Sys2Proof.Machine

variable (s : State) (addr : Offset) (wdata : Word) (ignored : BitVec 28) (code : BitVec 4)

@[simp] theorem exec_rd :
    exec (.rd addr wdata) s = .next { edge s with rdata := busRead s addr } := rfl
@[simp] theorem exec_wrCtrl :
    exec (.wrCtrl addr wdata) s = .next { edge s with irqEn := wdata.getLsbD 0 } := rfl
@[simp] theorem exec_wrStatus :
    exec (.wrStatus addr wdata) s = .next (clearFlags wdata (setsDone s) (edge s)) := rfl
@[simp] theorem exec_wrParamTStartLow :
    exec (.wrParamTStartLow addr wdata) s = writeLocked (fun t => { t with tStartLow := paramOperand 24 wdata }) s := rfl
@[simp] theorem exec_wrParamTStartHigh :
    exec (.wrParamTStartHigh addr wdata) s = writeLocked (fun t => { t with tStartHigh := paramOperand 16 wdata }) s := rfl
@[simp] theorem exec_wrParamMaxWindows :
    exec (.wrParamMaxWindows addr wdata) s = writeLocked (fun t => { t with maxWindows := paramOperand 8 wdata }) s := rfl
@[simp] theorem exec_wrParamBitThreshold :
    exec (.wrParamBitThreshold addr wdata) s = writeLocked (fun t => { t with bitThreshold := paramOperand 8 wdata }) s := rfl
@[simp] theorem exec_wrParamRetryBound :
    exec (.wrParamRetryBound addr wdata) s = writeLocked (fun t => { t with retryBound := paramOperand 8 wdata }) s := rfl
@[simp] theorem exec_wrParamTSettle :
    exec (.wrParamTSettle addr wdata) s = writeLocked (fun t => { t with tSettle := paramOperand 24 wdata }) s := rfl
@[simp] theorem exec_wrIgnoredId :
    exec (.wrIgnoredId addr wdata) s = .next (edge s) := rfl
@[simp] theorem exec_wrIgnoredRawLo :
    exec (.wrIgnoredRawLo addr wdata) s = .next (edge s) := rfl
@[simp] theorem exec_wrIgnoredRawHi :
    exec (.wrIgnoredRawHi addr wdata) s = .next (edge s) := rfl
@[simp] theorem exec_wrIgnoredReading :
    exec (.wrIgnoredReading addr wdata) s = .next (edge s) := rfl
@[simp] theorem exec_wrIgnoredReserved34 :
    exec (.wrIgnoredReserved34 addr wdata) s = .next (edge s) := rfl
@[simp] theorem exec_wrIgnoredReserved38To3C :
    exec (.wrIgnoredReserved38To3C addr wdata) s = .next (edge s) := rfl
@[simp] theorem exec_wrIgnoredReserved40To7C :
    exec (.wrIgnoredReserved40To7C addr wdata) s = .next (edge s) := rfl
@[simp] theorem exec_wrIgnoredReserved80ToFC :
    exec (.wrIgnoredReserved80ToFC addr wdata) s = .next (edge s) := rfl
@[simp] theorem exec_cmdNop :
    exec (.cmdNop addr ignored) s = .next (edge s) := rfl
@[simp] theorem exec_cmdAcquire :
    exec (.cmdAcquire addr ignored) s = startCommand .acquire s := rfl
@[simp] theorem exec_cmdDecode :
    exec (.cmdDecode addr ignored) s = startCommand .decode s := rfl
@[simp] theorem exec_cmdReserved3 :
    exec (.cmdReserved3 addr ignored) s = .next (setRej (edge s)) := rfl
@[simp] theorem exec_cmdReserved4To7 :
    exec (.cmdReserved4To7 addr ignored code) s = .next (setRej (edge s)) := rfl
@[simp] theorem exec_cmdReserved8ToF :
    exec (.cmdReserved8ToF addr ignored code) s = .next (setRej (edge s)) := rfl

end Sys2Proof.Machine
end

