-- ==== Sys2Proof/Laws/Ops.lean ====
section
/-! SUPPORT. For each shared operation of the sequencer, one lemma that says all it can do: a proof cites it instead of
unfolding the operation. -/

namespace Sys2Proof.Machine

/-- A timed phase leaves, counts a tick, or waits for one (R131). -/
theorem timedCycle_cases (n : BitVec 24) (exit : State → State) (tick : Bool) (s : State) :
    (n ≤ s.timer ∧ timedCycle n exit tick s = exit { s with timer := 0#24 }) ∨
    (s.timer < n ∧ tick = true ∧ timedCycle n exit tick s = { s with timer := s.timer + 1#24 }) ∨
    (s.timer < n ∧ tick = false ∧ timedCycle n exit tick s = s) := by
  unfold timedCycle
  by_cases h : n ≤ s.timer
  · exact .inl ⟨h, if_pos h⟩
  · rw [if_neg h]
    have h := BitVec.not_le.mp h
    cases tick
    · exact .inr (.inr ⟨h, rfl, rfl⟩)
    · exact .inr (.inl ⟨h, rfl, rfl⟩)

/-- A window that ends gives one bit if it is eligible, else none (R170 to R172). -/
theorem classify_cases (k d : BitVec 8) (s : State) :
    (eligible k s.nbits = true ∧ classify k d s = assembleBit (bitOf d s.bitThreshold) s) ∨
    (eligible k s.nbits = false ∧ classify k d s = s) := by
  unfold classify
  cases h : eligible k s.nbits
  · exact .inr ⟨rfl, rfl⟩
  · exact .inl ⟨rfl, rfl⟩

/-- A capture cycle ends at the window limit, waits for a tick, reaches the cap, counts a sample, or ends a window
(R150 to R154). -/
theorem captureCycle_cases (tick sample : Bool) (s : State) :
    (s.maxWindows ≤ s.win ∧ captureCycle tick sample s = { s with phase := .validate }) ∨
    (s.win < s.maxWindows ∧ tick = false ∧ captureCycle tick sample s = s) ∨
    (s.win < s.maxWindows ∧ tick = true ∧ sample = s.prev ∧ s.cnt + 1#8 = 255#8 ∧
      captureCycle tick sample s = { s with cnt := 255#8, capHit := true, phase := .validate }) ∨
    (s.win < s.maxWindows ∧ tick = true ∧ sample = s.prev ∧ s.cnt + 1#8 ≠ 255#8 ∧
      captureCycle tick sample s = { s with cnt := s.cnt + 1#8 }) ∨
    (s.win < s.maxWindows ∧ tick = true ∧ sample ≠ s.prev ∧
      captureCycle tick sample s = levelChange sample s) := by
  unfold captureCycle
  by_cases h : s.maxWindows ≤ s.win
  · exact .inl ⟨h, if_pos h⟩
  rw [if_neg h]
  have h := BitVec.not_le.mp h
  cases tick
  · exact .inr (.inl ⟨h, rfl, rfl⟩)
  rw [if_pos rfl]
  by_cases hs : sample = s.prev
  · rw [if_pos hs]
    unfold sameLevel Config.tickCap
    by_cases hc : s.cnt + 1#8 = 255#8
    · exact .inr (.inr (.inl ⟨h, rfl, hs, hc, if_pos hc⟩))
    · exact .inr (.inr (.inr (.inl ⟨h, rfl, hs, hc, if_neg hc⟩)))
  · rw [if_neg hs]
    exact .inr (.inr (.inr (.inr ⟨h, rfl, hs, rfl⟩)))

/-- A failed attempt ends a DECODE and sends an ACQUIRE to SETTLE (R196). -/
theorem failAttempt_cases (kind : FailKind) (s : State) :
    (s.mode = .decode ∧ failAttempt kind s = completeCommand kind.err s) ∨
    (s.mode = .acquire ∧ failAttempt kind s = { s with timer := 0#24, phase := .settle }) := by
  unfold failAttempt
  cases h : s.mode
  · exact .inl ⟨rfl, rfl⟩
  · exact .inr ⟨rfl, rfl⟩

/-- VALIDATE fails for want of bits, fails the checksum, or commits (R190). -/
theorem validateCycle_cases (s : State) :
    (s.nbits < 40#6 ∧ validateCycle s = failAttempt .incomplete s) ∨
    (40#6 ≤ s.nbits ∧ s.fb.b4 ≠ checksum s.fb ∧ validateCycle s = failAttempt .checksumMismatch s) ∨
    (40#6 ≤ s.nbits ∧ s.fb.b4 = checksum s.fb ∧ validateCycle s = commit s) := by
  unfold validateCycle Config.frameBits
  by_cases h : s.nbits < 40#6
  · exact .inl ⟨h, if_pos h⟩
  rw [if_neg h]
  have h := BitVec.not_lt.mp h
  by_cases hc : s.fb.b4 = checksum s.fb
  · exact .inr (.inr ⟨h, hc, if_neg (not_not.mpr hc)⟩)
  · exact .inr (.inl ⟨h, hc, if_pos hc⟩)

/-- The exit of SETTLE starts the next attempt or ends the command (R212). -/
theorem exitSettle_cases (s : State) :
    (s.attempts < s.retryBound ∧ exitSettle s = beginAttempt (s.attempts + 1#8) s) ∨
    (s.retryBound ≤ s.attempts ∧ exitSettle s = completeCommand .exhausted s) := by
  unfold exitSettle
  by_cases h : s.attempts < s.retryBound
  · exact .inl ⟨h, if_pos h⟩
  · exact .inr ⟨BitVec.not_lt.mp h, if_neg h⟩

/-- Acceptance begins attempt 1 or, for an ACQUIRE with RETRY_BOUND = 0, exhausts at once (R110). -/
theorem acceptCommand_cases (m : Mode) (s : State) :
    (m = .acquire ∧ s.retryBound = 0#8 ∧
      acceptCommand m s = exhaustAtOnce (clearOutcome { s with mode := m })) ∨
    ((m = .decode ∨ s.retryBound ≠ 0#8) ∧
      acceptCommand m s = beginAttempt 1#8 (clearOutcome { s with mode := m })) := by
  unfold acceptCommand
  by_cases h : m = .acquire ∧ s.retryBound = 0#8
  · exact .inl ⟨h.1, h.2, if_pos h⟩
  · refine .inr ⟨?_, if_neg h⟩
    cases m
    · exact .inl rfl
    · exact .inr fun hb => h ⟨rfl, hb⟩

/-- The sequencer, by phase (R132, R133, R150, R190, R211, R242). -/
theorem sequencer_cases (tick sample : Bool) (s : State) :
    (s.phase = .idle ∧ sequencer tick sample s = s) ∨
    (s.phase = .startLow ∧ sequencer tick sample s = timedCycle s.tStartLow exitStartLow tick s) ∨
    (s.phase = .startHigh ∧
      sequencer tick sample s = timedCycle (s.tStartHigh.setWidth 24) enterCapture tick s) ∨
    (s.phase = .capture ∧ sequencer tick sample s = captureCycle tick sample s) ∨
    (s.phase = .validate ∧ sequencer tick sample s = validateCycle s) ∨
    (s.phase = .settle ∧ sequencer tick sample s = timedCycle s.tSettle exitSettle tick s) := by
  unfold sequencer
  cases h : s.phase <;> simp [startLowCycle, startHighCycle, settleCycle]

/-- What the sequencer never writes: the configuration, REJ, the synchronizer and the model's own fields (R50, R74 c). -/
theorem sequencer_frame (tick sample : Bool) (s : State) :
    sequencer tick sample s =
      { sequencer tick sample s with
          mode := s.mode, rej := s.rej, irqEn := s.irqEn, tStartLow := s.tStartLow,
          tStartHigh := s.tStartHigh, maxWindows := s.maxWindows, bitThreshold := s.bitThreshold,
          retryBound := s.retryBound, tSettle := s.tSettle, sync1 := s.sync1, sync2 := s.sync2,
          inputs := s.inputs, cycle := s.cycle, rdata := s.rdata } := by
  rcases sequencer_cases tick sample s with ⟨_, h⟩ | ⟨_, h⟩ | ⟨_, h⟩ | ⟨_, h⟩ | ⟨_, h⟩ | ⟨_, h⟩ <;> rw [h]
  · rcases timedCycle_cases s.tStartLow exitStartLow tick s with ⟨_, h⟩ | ⟨_, _, h⟩ | ⟨_, _, h⟩ <;> (rw [h]; try rfl)
  · rcases timedCycle_cases (s.tStartHigh.setWidth 24) enterCapture tick s with
      ⟨_, h⟩ | ⟨_, _, h⟩ | ⟨_, _, h⟩ <;> (rw [h]; try rfl)
  · rcases captureCycle_cases tick sample s with
      ⟨_, h⟩ | ⟨_, _, h⟩ | ⟨_, _, _, _, h⟩ | ⟨_, _, _, _, h⟩ | ⟨_, _, _, h⟩ <;> rw [h]
    unfold levelChange
    rcases classify_cases s.win s.cnt s with ⟨_, h⟩ | ⟨_, h⟩ <;> (rw [h]; try rfl)
  · rcases validateCycle_cases s with ⟨_, h⟩ | ⟨_, _, h⟩ | ⟨_, _, h⟩ <;> rw [h]
    · rcases failAttempt_cases .incomplete s with ⟨_, h⟩ | ⟨_, h⟩ <;> (rw [h]; try rfl)
    · rcases failAttempt_cases .checksumMismatch s with ⟨_, h⟩ | ⟨_, h⟩ <;> (rw [h]; try rfl)
    · rfl
  · rcases timedCycle_cases s.tSettle exitSettle tick s with ⟨_, h⟩ | ⟨_, _, h⟩ | ⟨_, _, h⟩ <;> rw [h]
    rcases exitSettle_cases { s with timer := 0#24 } with ⟨_, h⟩ | ⟨_, h⟩ <;> (rw [h]; try rfl)

/-- In IDLE the edge only shifts the synchronizer. -/
theorem edge_of_idle {s : State} (h : s.phase = .idle) : edge s = clocked s := by
  simp [edge, sequencer, h]

end Sys2Proof.Machine
end

