-- ==== Sys2Proof/Laws/Sequencer.lean ====
section
/-! SUPPORT. Everything the sequencer can do in one cycle, said once as one case list, and what follows from it about DONE,
REJ and the configuration. A proof about a cycle does `cases sequencerTo tick sample s` and unfolds nothing. -/

namespace Sys2Proof.Machine

/-- The transitions of the sequencer, each with its guard: the state after is the last argument. -/
inductive SequencerTo (tick sample : Bool) (s : State) : State → Prop
  | idle : s.phase = .idle → SequencerTo tick sample s s
  | startLowExit : s.phase = .startLow → s.tStartLow ≤ s.timer →
      SequencerTo tick sample s (exitStartLow { s with timer := 0#24 })
  | startLowTick : s.phase = .startLow → s.timer < s.tStartLow → tick = true →
      SequencerTo tick sample s { s with timer := s.timer + 1#24 }
  | startLowWait : s.phase = .startLow → s.timer < s.tStartLow → tick = false → SequencerTo tick sample s s
  | startHighExit : s.phase = .startHigh → s.tStartHigh.setWidth 24 ≤ s.timer →
      SequencerTo tick sample s (enterCapture { s with timer := 0#24 })
  | startHighTick : s.phase = .startHigh → s.timer < s.tStartHigh.setWidth 24 → tick = true →
      SequencerTo tick sample s { s with timer := s.timer + 1#24 }
  | startHighWait : s.phase = .startHigh → s.timer < s.tStartHigh.setWidth 24 → tick = false →
      SequencerTo tick sample s s
  | captureLimit : s.phase = .capture → s.maxWindows ≤ s.win →
      SequencerTo tick sample s { s with phase := .validate }
  | captureWait : s.phase = .capture → s.win < s.maxWindows → tick = false → SequencerTo tick sample s s
  | captureCap : s.phase = .capture → s.win < s.maxWindows → tick = true → sample = s.prev →
      s.cnt + 1#8 = 255#8 →
      SequencerTo tick sample s { s with cnt := 255#8, capHit := true, phase := .validate }
  | captureSame : s.phase = .capture → s.win < s.maxWindows → tick = true → sample = s.prev →
      s.cnt + 1#8 ≠ 255#8 → SequencerTo tick sample s { s with cnt := s.cnt + 1#8 }
  | captureBit : s.phase = .capture → s.win < s.maxWindows → tick = true → sample ≠ s.prev →
      eligible s.win s.nbits = true →
      SequencerTo tick sample s
        { assembleBit (bitOf s.cnt s.bitThreshold) s with win := s.win + 1#8, prev := sample, cnt := 1#8 }
  | captureNoBit : s.phase = .capture → s.win < s.maxWindows → tick = true → sample ≠ s.prev →
      eligible s.win s.nbits = false →
      SequencerTo tick sample s { s with win := s.win + 1#8, prev := sample, cnt := 1#8 }
  | decodeFails (kind : FailKind) : s.phase = .validate → s.mode = .decode →
      (kind = .incomplete ∧ s.nbits < 40#6 ∨
        kind = .checksumMismatch ∧ 40#6 ≤ s.nbits ∧ s.fb.b4 ≠ checksum s.fb) →
      SequencerTo tick sample s (completeCommand kind.err s)
  | attemptFails : s.phase = .validate → s.mode = .acquire →
      (s.nbits < 40#6 ∨ 40#6 ≤ s.nbits ∧ s.fb.b4 ≠ checksum s.fb) →
      SequencerTo tick sample s { s with timer := 0#24, phase := .settle }
  | commit : s.phase = .validate → 40#6 ≤ s.nbits → s.fb.b4 = checksum s.fb →
      SequencerTo tick sample s (Machine.commit s)
  | settleNext : s.phase = .settle → s.tSettle ≤ s.timer → s.attempts < s.retryBound →
      SequencerTo tick sample s (beginAttempt (s.attempts + 1#8) { s with timer := 0#24 })
  | settleEnd : s.phase = .settle → s.tSettle ≤ s.timer → s.retryBound ≤ s.attempts →
      SequencerTo tick sample s (completeCommand .exhausted { s with timer := 0#24 })
  | settleTick : s.phase = .settle → s.timer < s.tSettle → tick = true →
      SequencerTo tick sample s { s with timer := s.timer + 1#24 }
  | settleWait : s.phase = .settle → s.timer < s.tSettle → tick = false → SequencerTo tick sample s s

/-- The sequencer takes one of these transitions. -/
theorem sequencerTo (tick sample : Bool) (s : State) :
    SequencerTo tick sample s (sequencer tick sample s) := by
  rcases sequencer_cases tick sample s with ⟨p, e⟩ | ⟨p, e⟩ | ⟨p, e⟩ | ⟨p, e⟩ | ⟨p, e⟩ | ⟨p, e⟩ <;> rw [e]
  · exact .idle p
  · rcases timedCycle_cases s.tStartLow exitStartLow tick s with ⟨a, e⟩ | ⟨a, b, e⟩ | ⟨a, b, e⟩ <;> rw [e]
    · exact .startLowExit p a
    · exact .startLowTick p a b
    · exact .startLowWait p a b
  · rcases timedCycle_cases (s.tStartHigh.setWidth 24) enterCapture tick s with
      ⟨a, e⟩ | ⟨a, b, e⟩ | ⟨a, b, e⟩ <;> rw [e]
    · exact .startHighExit p a
    · exact .startHighTick p a b
    · exact .startHighWait p a b
  · rcases captureCycle_cases tick sample s with
      ⟨a, e⟩ | ⟨a, b, e⟩ | ⟨a, b, c, d, e⟩ | ⟨a, b, c, d, e⟩ | ⟨a, b, c, e⟩ <;> rw [e]
    · exact .captureLimit p a
    · exact .captureWait p a b
    · exact .captureCap p a b c d
    · exact .captureSame p a b c d
    · unfold levelChange
      rcases classify_cases s.win s.cnt s with ⟨f, e⟩ | ⟨f, e⟩ <;> rw [e]
      · exact .captureBit p a b c f
      · exact .captureNoBit p a b c f
  · rcases validateCycle_cases s with ⟨a, e⟩ | ⟨a, b, e⟩ | ⟨a, b, e⟩ <;> rw [e]
    · rcases failAttempt_cases .incomplete s with ⟨m, e⟩ | ⟨m, e⟩ <;> rw [e]
      · exact .decodeFails _ p m (.inl ⟨rfl, a⟩)
      · exact .attemptFails p m (.inl a)
    · rcases failAttempt_cases .checksumMismatch s with ⟨m, e⟩ | ⟨m, e⟩ <;> rw [e]
      · exact .decodeFails _ p m (.inr ⟨rfl, a, b⟩)
      · exact .attemptFails p m (.inr ⟨a, b⟩)
    · exact .commit p a b
  · rcases timedCycle_cases s.tSettle exitSettle tick s with ⟨a, e⟩ | ⟨a, b, e⟩ | ⟨a, b, e⟩ <;> rw [e]
    · rcases exitSettle_cases { s with timer := 0#24 } with ⟨b, e⟩ | ⟨b, e⟩ <;> rw [e]
      · exact .settleNext p a b
      · exact .settleEnd p a b
    · exact .settleTick p a b
    · exact .settleWait p a b

/-- A timed phase carries the old DONE along. -/
theorem timedCycle_done (n : BitVec 24) (exit : State → State) (tick : Bool) (s : State) (d : Bool)
    (he : ∀ (u : State) (d : Bool),
      exit { u with done := d } =
        { exit { u with done := false } with done := (exit { u with done := false }).done || d }) :
    timedCycle n exit tick { s with done := d } =
      { timedCycle n exit tick { s with done := false } with
          done := (timedCycle n exit tick { s with done := false }).done || d } := by
  unfold timedCycle
  simp only
  by_cases h : n ≤ s.timer
  · simp only [h, if_true]
    exact he { s with timer := 0#24 } d
  · simp only [h, if_false]
    cases tick <;> simp

/-- The sequencer never reads DONE: it sets it or leaves it. -/
theorem sequencer_done (tick sample : Bool) (s : State) (d : Bool) :
    sequencer tick sample { s with done := d } =
      { sequencer tick sample { s with done := false } with
          done := (sequencer tick sample { s with done := false }).done || d } := by
  unfold sequencer
  cases h : s.phase
  all_goals simp only
  · simp
  · exact timedCycle_done _ _ _ { s with phase := .startLow } d (by intro u d; simp [exitStartLow])
  · exact timedCycle_done _ _ _ { s with phase := .startHigh } d (by intro u d; simp [enterCapture, release])
  · simp only [captureCycle, sameLevel, levelChange, classify, assembleBit]
    by_cases h1 : s.maxWindows ≤ s.win
    · simp [h1]
    · simp only [h1, if_false]
      cases tick
      · simp
      · simp only [if_true]
        by_cases h2 : sample = s.prev
        · simp only [h2, if_true]
          by_cases h3 : s.cnt + 1#8 = Config.tickCap <;> simp [h3]
        · simp only [h2, if_false]
          by_cases h3 : eligible s.win s.nbits = true <;> simp [h3]
  · simp only [validateCycle]
    by_cases h1 : s.nbits < Config.frameBits
    · simp only [h1, if_true, failAttempt, completeCommand]
      cases s.mode <;> simp
    · simp only [h1, if_false]
      by_cases h2 : s.fb.b4 = checksum s.fb
      · simp [h2, commit, completeCommand]
      · simp only [h2, ne_eq, not_false_eq_true, if_true, failAttempt, completeCommand]
        cases s.mode <;> simp
  · refine timedCycle_done _ _ _ { s with phase := .settle } d ?_
    intro u d
    simp only [exitSettle]
    by_cases h2 : u.attempts < u.retryBound <;> simp [h2, completeCommand, beginAttempt, drive]

/-- DONE after an edge at which the host writes nothing. -/
theorem edge_done (s : State) : (edge s).done = (setsDone s || s.done) := by
  have h := sequencer_done s.pins.tickI s.sync2 s s.done
  have e : ({ s with done := s.done } : State) = s := rfl
  rw [e] at h
  unfold setsDone
  simp only [edge, clocked_done]
  rw [h]

/-- The edge leaves REJ alone. -/
theorem edge_rej (s : State) : (edge s).rej = s.rej := by
  have h := sequencer_frame s.pins.tickI s.sync2 s
  simp only [edge, clocked_rej]
  rw [h]

end Sys2Proof.Machine
end

