-- ==== Sys2Proof/Laws/Step.lean ====
section
/-! SUPPORT. What one cycle can do, said once: every claim about a step starts from these two lemmas. -/

namespace Sys2Proof.Machine

/-- The three kinds of cycle of the host: it leaves the sequencer's edge as it is but for IRQ_EN, DONE, REJ and the value
read, and can lower DONE only at an edge where no command completes; in IDLE it may store a parameter; and in IDLE
it may start a command (R74). -/
abbrev CycleKind (s t : State) : Prop :=
  (t = { edge s with irqEn := t.irqEn, done := t.done, rej := t.rej, rdata := t.rdata } ∧
    (t.done = (edge s).done ∨ (t.done = false ∧ setsDone s = false))) ∨
  (s.phase = .idle ∧
    t = { clocked s with
            tStartLow := t.tStartLow, tStartHigh := t.tStartHigh, maxWindows := t.maxWindows,
            bitThreshold := t.bitThreshold, retryBound := t.retryBound, tSettle := t.tSettle }) ∨
  (s.phase = .idle ∧ ∃ m, t = acceptCommand m (clocked s))

/-- A locked write is a rejection, or the store in IDLE (R104). -/
theorem writeLocked_cases {store : State → State} {s t : State} (h : writeLocked store s = .next t) :
    (s.phase ≠ .idle ∧ t = setRej (edge s)) ∨ (s.phase = .idle ∧ t = store (clocked s)) := by
  unfold writeLocked at h
  injection h with h
  by_cases hi : s.phase = .idle
  · exact .inr ⟨hi, by simpa [busy, hi, edge_of_idle] using h.symm⟩
  · exact .inl ⟨hi, by simpa [busy, hi] using h.symm⟩

/-- A start command is a rejection, or the acceptance in IDLE (R107, R108). -/
theorem startCommand_cases {m : Mode} {s t : State} (h : startCommand m s = .next t) :
    (s.phase ≠ .idle ∧ t = setRej (edge s)) ∨ (s.phase = .idle ∧ t = acceptCommand m (clocked s)) := by
  unfold startCommand at h
  injection h with h
  by_cases hi : s.phase = .idle
  · exact .inr ⟨hi, by simpa [busy, hi, edge_of_idle] using h.symm⟩
  · exact .inl ⟨hi, by simpa [busy, hi] using h.symm⟩

/-- A STATUS write leaves DONE as the sequencer leaves it, or lowers it where no command completes (R103). -/
theorem clearFlags_done (wdata : Word) (doneSet : Bool) (u : State) :
    (clearFlags wdata doneSet u).done = u.done ∨
      ((clearFlags wdata doneSet u).done = false ∧ doneSet = false) := by
  unfold clearFlags
  cases doneSet
  · cases u.done <;> cases wdata.getLsbD 1 <;> simp
  · exact .inl (by simp)

theorem cycleKind_of_rejected {s t : State} (h : t = setRej (edge s)) : CycleKind s t := by
  subst h
  exact .inl ⟨rfl, .inl rfl⟩

/-- Every operation's cycle is of one of the three kinds. -/
theorem exec_cases {i : Instr} {s t : State} (h : exec i s = .next t) : CycleKind s t := by
  have locked : ∀ {store : State → State}, writeLocked store s = .next t →
      (∀ u, store u = { u with
        tStartLow := (store u).tStartLow, tStartHigh := (store u).tStartHigh,
        maxWindows := (store u).maxWindows, bitThreshold := (store u).bitThreshold,
        retryBound := (store u).retryBound, tSettle := (store u).tSettle }) → CycleKind s t := by
    intro store h hstore
    rcases writeLocked_cases h with ⟨_, h⟩ | ⟨hi, h⟩
    · exact cycleKind_of_rejected h
    · exact .inr (.inl ⟨hi, by rw [h]; exact hstore _⟩)
  have started : ∀ {m}, startCommand m s = .next t → CycleKind s t := by
    intro m h
    rcases startCommand_cases h with ⟨_, h⟩ | ⟨hi, h⟩
    · exact cycleKind_of_rejected h
    · exact .inr (.inr ⟨hi, m, h⟩)
  cases i <;> simp only [exec_rd, exec_wrCtrl, exec_wrStatus, exec_wrParamTStartLow, exec_wrParamTStartHigh,
    exec_wrParamMaxWindows, exec_wrParamBitThreshold, exec_wrParamRetryBound, exec_wrParamTSettle,
    exec_wrIgnoredId, exec_wrIgnoredRawLo, exec_wrIgnoredRawHi, exec_wrIgnoredReading,
    exec_wrIgnoredReserved34, exec_wrIgnoredReserved38To3C, exec_wrIgnoredReserved40To7C,
    exec_wrIgnoredReserved80ToFC, exec_cmdNop, exec_cmdAcquire, exec_cmdDecode, exec_cmdReserved3,
    exec_cmdReserved4To7, exec_cmdReserved8ToF] at h
  case wrParamTStartLow | wrParamTStartHigh | wrParamMaxWindows | wrParamBitThreshold | wrParamRetryBound |
      wrParamTSettle => exact locked h fun _ => rfl
  case cmdAcquire | cmdDecode => exact started h
  case wrStatus addr wdata =>
    injection h with h
    subst h
    exact .inl ⟨rfl, clearFlags_done wdata (setsDone s) (edge s)⟩
  all_goals
    injection h with h
    subst h
    exact .inl ⟨rfl, .inl rfl⟩

/-- A step is a reset edge, a cycle without a transaction, or the transaction's cycle (R260, R80). -/
theorem step_cases {s t : State} (h : step s = .next t) :
    (s.pins.rstN = false ∧ t = resetEdge s) ∨
    (s.pins.rstN = true ∧ s.pins.busSel = false ∧ t = edge s) ∨
    (s.pins.rstN = true ∧ s.pins.busSel = true ∧ exec (decode s.pins.word) s = .next t) := by
  unfold step quietCycle resetCycle at h
  cases hr : s.pins.rstN <;> cases hb : s.pins.busSel <;> simp [hr, hb] at h
  · exact .inl ⟨rfl, h.symm⟩
  · exact .inl ⟨rfl, h.symm⟩
  · exact .inr (.inl ⟨rfl, rfl, h.symm⟩)
  · exact .inr (.inr ⟨rfl, rfl, h⟩)

end Sys2Proof.Machine
end

