-- ==== Sys2Proof/Laws/Invariant.lean ====
section
/-! SUPPORT. The induction over steps, packaged once: an invariant kept by the sequencer, by the writes of the host and by
the acceptance of a command is kept by every step. And one step of a run. -/

namespace Sys2Proof.Machine

/-- The invariant principle: what the host and the clock write is named, so that each part is one small goal. -/
theorem step_keeps (I : State → Prop)
    (hreset : ∀ ins c r, I { State.reset with inputs := ins, cycle := c, rdata := r })
    (hsequencer : ∀ s tick sample, I s → I (sequencer tick sample s))
    (hhost : ∀ s a b ins c r e d j, (d = s.done ∨ d = false) → I s →
      I { s with sync1 := a, sync2 := b, inputs := ins, cycle := c, rdata := r, irqEn := e, rej := j, done := d })
    (hparams : ∀ s a b c d e f, s.phase = .idle → I s →
      I { s with tStartLow := a, tStartHigh := b, maxWindows := c, bitThreshold := d, retryBound := e,
                 tSettle := f })
    (haccept : ∀ s m, s.phase = .idle → I s → I (acceptCommand m s)) {s t : State}
    (hs : I s) (h : step s = .next t) : I t := by
  have hclk : I (clocked s) := hhost s _ _ _ _ _ s.irqEn s.done s.rej (.inl rfl) hs
  have key : CycleKind s t → I t := by
    intro hk
    rcases hk with ⟨h1, h2⟩ | ⟨h2, h1⟩ | ⟨h2, m, h1⟩
    · rw [h1]
      refine hhost (sequencer s.pins.tickI s.sync2 s) _ _ _ _ _ _ _ _ ?_ (hsequencer s _ _ hs)
      exact h2.imp id And.left
    · rw [h1]
      exact hparams _ _ _ _ _ _ _ h2 hclk
    · rw [h1]
      exact haccept _ _ h2 hclk
  rcases step_cases h with ⟨_, h1⟩ | ⟨_, _, h1⟩ | ⟨_, _, h1⟩
  · rw [h1]
    exact hreset _ _ _
  · subst h1
    exact key (.inl ⟨rfl, .inl rfl⟩)
  · exact key (exec_cases h1)

/-- Every step uses up one listed input. -/
theorem step_inputs {s t : State} (h : step s = .next t) : t.inputs = s.inputs.tail := by
  have hf := sequencer_frame s.pins.tickI s.sync2 s
  have key : CycleKind s t → t.inputs = s.inputs.tail := by
    intro hk
    rcases hk with ⟨h1, _⟩ | ⟨_, h1⟩ | ⟨_, m, h1⟩ <;> rw [h1]
    · simp only [edge, clocked]
      rw [hf]
    · rfl
    · rcases acceptCommand_cases m (clocked s) with ⟨_, _, e⟩ | ⟨_, e⟩ <;> rw [e] <;> rfl
  rcases step_cases h with ⟨_, h1⟩ | ⟨_, _, h1⟩ | ⟨_, _, h1⟩
  · rw [h1]
    rfl
  · subst h1
    exact key (.inl ⟨rfl, .inl rfl⟩)
  · exact key (exec_cases h1)

/-- The pins of a cycle are the head of the listed inputs. -/
theorem pins_of_inputs {s : State} {p : Pins} {ps : List Pins} (h : s.inputs = p :: ps) : s.pins = p := by
  unfold State.pins
  rw [h]

/-- A run takes its first step and goes on. -/
theorem run_succ_of_step (M : Host.Core) (k : Nat) (s t : M.State) (h : M.step s = .next t) :
    M.run (k + 1) s = M.run k t := by
  simp only [Host.Core.run, h]

/-- The same for this block, in its own names. -/
theorem run_succ {k : Nat} {s t : State} (h : step s = .next t) :
    Host.Core.run core (k + 1) s = Host.Core.run core k t :=
  run_succ_of_step core k s t h

end Sys2Proof.Machine
end

