-- ==== Sys2Proof/Laws/PerInstr.lean ====
section
/-! SUPPORT. Per operation: the word of a well-formed operation lies in the operation's own row of the opcode table. -/

namespace Sys2Proof.Laws.RowMatch

/-- The encoding of a well-formed operation has the fixed bits of its row (spec/opcode_table.json). -/
def Statement (i : Instr) : Prop := i.wf = true → (tableRow i).holds (encode i) = true

/-- A write whose address lies in a run of slots has the row's address bits. -/
theorem holds_write {addr mask value : Offset} {lo hi : Nat} (wdata : Word)
    (h : slotWithin lo hi addr = true)
    (hmask : ∀ a : Offset, slotWithin lo hi a = true → a &&& mask = value) :
    TableRow.holds ⟨transactionWord true value 0#32, transactionWord true mask 0#32⟩
      (transactionWord true addr wdata) = true := by
  unfold TableRow.holds
  rw [transactionWord_and, hmask addr h]
  simp

/-- A CMD write has the row's address bits and the row's code bits. -/
theorem holds_cmd {addr : Offset} (ignored : BitVec 28) {code mask value : BitVec 4}
    (h : slotWithin 2 2 addr = true) (hcode : code &&& mask = value) :
    TableRow.holds ⟨transactionWord true 0x08#8 (cmdWdata 0#28 value),
        transactionWord true 0xFC#8 (cmdWdata 0#28 mask)⟩
      (transactionWord true addr (cmdWdata ignored code)) = true := by
  have ha : addr &&& 0xFC#8 = 0x08#8 := by revert addr; decide
  unfold TableRow.holds
  rw [transactionWord_and, cmdWdata_and, ha, hcode]
  simp

theorem rd (addr : Offset) (wdata : Word) : Statement (.rd addr wdata) := by
  intro _
  show TableRow.holds ⟨transactionWord false 0#8 0#32, transactionWord true 0#8 0#32⟩
    (transactionWord false addr wdata) = true
  unfold TableRow.holds
  rw [transactionWord_and]
  simp

theorem wrCtrl (addr : Offset) (wdata : Word) : Statement (.wrCtrl addr wdata) :=
  fun h => holds_write (mask := 0xFC#8) (value := 0x04#8) wdata h (by decide)
theorem cmdNop (addr : Offset) (ignored : BitVec 28) : Statement (.cmdNop addr ignored) :=
  fun h => holds_cmd (mask := 0xF#4) (value := 0x0#4) ignored h rfl
theorem cmdAcquire (addr : Offset) (ignored : BitVec 28) : Statement (.cmdAcquire addr ignored) :=
  fun h => holds_cmd (mask := 0xF#4) (value := 0x1#4) ignored h rfl
theorem cmdDecode (addr : Offset) (ignored : BitVec 28) : Statement (.cmdDecode addr ignored) :=
  fun h => holds_cmd (mask := 0xF#4) (value := 0x2#4) ignored h rfl
theorem cmdReserved3 (addr : Offset) (ignored : BitVec 28) : Statement (.cmdReserved3 addr ignored) :=
  fun h => holds_cmd (mask := 0xF#4) (value := 0x3#4) ignored h rfl
theorem cmdReserved4To7 (addr : Offset) (ignored : BitVec 28) (code : BitVec 4) :
    Statement (.cmdReserved4To7 addr ignored code) := by
  intro h
  simp only [Instr.wf, Bool.and_eq_true, decide_eq_true_eq] at h
  have hc : ∀ c : BitVec 4, 4 ≤ c.toNat → c.toNat ≤ 7 → c &&& 0xC#4 = 0x4#4 := by decide
  exact holds_cmd ignored h.1.1 (hc code h.1.2 h.2)
theorem cmdReserved8ToF (addr : Offset) (ignored : BitVec 28) (code : BitVec 4) :
    Statement (.cmdReserved8ToF addr ignored code) := by
  intro h
  simp only [Instr.wf, Bool.and_eq_true, decide_eq_true_eq] at h
  have hc : ∀ c : BitVec 4, 8 ≤ c.toNat → c &&& 0x8#4 = 0x8#4 := by decide
  exact holds_cmd ignored h.1 (hc code h.2)
theorem wrStatus (addr : Offset) (wdata : Word) : Statement (.wrStatus addr wdata) :=
  fun h => holds_write (mask := 0xFC#8) (value := 0x0C#8) wdata h (by decide)
theorem wrParamTStartLow (addr : Offset) (wdata : Word) : Statement (.wrParamTStartLow addr wdata) :=
  fun h => holds_write (mask := 0xFC#8) (value := 0x10#8) wdata h (by decide)
theorem wrParamTStartHigh (addr : Offset) (wdata : Word) : Statement (.wrParamTStartHigh addr wdata) :=
  fun h => holds_write (mask := 0xFC#8) (value := 0x14#8) wdata h (by decide)
theorem wrParamMaxWindows (addr : Offset) (wdata : Word) : Statement (.wrParamMaxWindows addr wdata) :=
  fun h => holds_write (mask := 0xFC#8) (value := 0x18#8) wdata h (by decide)
theorem wrParamBitThreshold (addr : Offset) (wdata : Word) : Statement (.wrParamBitThreshold addr wdata) :=
  fun h => holds_write (mask := 0xFC#8) (value := 0x1C#8) wdata h (by decide)
theorem wrParamRetryBound (addr : Offset) (wdata : Word) : Statement (.wrParamRetryBound addr wdata) :=
  fun h => holds_write (mask := 0xFC#8) (value := 0x20#8) wdata h (by decide)
theorem wrParamTSettle (addr : Offset) (wdata : Word) : Statement (.wrParamTSettle addr wdata) :=
  fun h => holds_write (mask := 0xFC#8) (value := 0x24#8) wdata h (by decide)
theorem wrIgnoredId (addr : Offset) (wdata : Word) : Statement (.wrIgnoredId addr wdata) :=
  fun h => holds_write (mask := 0xFC#8) (value := 0x00#8) wdata h (by decide)
theorem wrIgnoredRawLo (addr : Offset) (wdata : Word) : Statement (.wrIgnoredRawLo addr wdata) :=
  fun h => holds_write (mask := 0xFC#8) (value := 0x28#8) wdata h (by decide)
theorem wrIgnoredRawHi (addr : Offset) (wdata : Word) : Statement (.wrIgnoredRawHi addr wdata) :=
  fun h => holds_write (mask := 0xFC#8) (value := 0x2C#8) wdata h (by decide)
theorem wrIgnoredReading (addr : Offset) (wdata : Word) : Statement (.wrIgnoredReading addr wdata) :=
  fun h => holds_write (mask := 0xFC#8) (value := 0x30#8) wdata h (by decide)
theorem wrIgnoredReserved34 (addr : Offset) (wdata : Word) :
    Statement (.wrIgnoredReserved34 addr wdata) :=
  fun h => holds_write (mask := 0xFC#8) (value := 0x34#8) wdata h (by decide)
theorem wrIgnoredReserved38To3C (addr : Offset) (wdata : Word) :
    Statement (.wrIgnoredReserved38To3C addr wdata) :=
  fun h => holds_write (mask := 0xF8#8) (value := 0x38#8) wdata h (by decide)
theorem wrIgnoredReserved40To7C (addr : Offset) (wdata : Word) :
    Statement (.wrIgnoredReserved40To7C addr wdata) :=
  fun h => holds_write (mask := 0xC0#8) (value := 0x40#8) wdata h (by decide)
theorem wrIgnoredReserved80ToFC (addr : Offset) (wdata : Word) :
    Statement (.wrIgnoredReserved80ToFC addr wdata) :=
  fun h => holds_write (mask := 0x80#8) (value := 0x80#8) wdata h (by decide)

end Sys2Proof.Laws.RowMatch
end

