-- ==== Sys2Proof/Tests/Slice0.lean ====
section
/-! SUPPORT. Tests and witnesses. Expected values are the spec's: the encodings of spec/30_encoding.md, the vectors V-… of
spec/95_test_vectors.md and the register values of spec/10_state.md. A witness shows a concrete state and operands that
meet the hypotheses of a statement of Sys2Proof/Certificates/Slice0/Obligations.lean. -/

namespace Sys2Proof.Tests

open Sys2Proof.Machine

/-! ## Small states -/

/-- The pins of a cycle with reset inactive, the line High and no transaction, with or without a tick strobe. -/
def pins (tick : Bool) : Pins :=
  { rstN := true, tickI := tick, dqI := true, busSel := false, busWe := false, busAddr := 0#8, busWdata := 0#32 }

/-- After reset, with three quiet cycles to come. -/
def idle : State := { State.reset with inputs := [pins false, pins false, pins false] }

/-- Attempt 1 of a command in a phase, every cycle to come with a tick strobe. -/
def running (m : Mode) (p : Phase) : State :=
  { State.reset with
      mode := m, phase := p, attempts := 1#8, inputs := [pins true, pins true, pins true]
      dqOe := decide (p = .startLow ∨ p = .startHigh), dqO := decide (p = .startHigh) }

/-- VALIDATE with the 40 bits of a frame, capture ended by the cap in window 84 (V-CAP-9). -/
def validating (m : Mode) (f : Frame) : State :=
  { running m .validate with nbits := 40#6, fb := f, win := 84#8, cnt := 255#8, capHit := true }

/-- The frame of P1, with its checksum (R192), and the same frame with a wrong one. -/
def frame : Frame := ⟨45#8, 0#8, 23#8, 0#8, 68#8⟩
def badFrame : Frame := ⟨45#8, 0#8, 23#8, 0#8, 69#8⟩

/-- A completed DECODE of `frame`: STATUS = 0x01280046 (V-WR-3, V-WR-13). -/
def completed : State :=
  { idle with attempts := 1#8, nbits := 40#6, capHit := true, ok := true, done := true, raw := frame
              humX10 := 450#16, tempX10 := 230#16 }

/-- The next state of an outcome. -/
def after : Host.Outcome State Fault Refusal → State
  | .next t => t
  | .fault _ => State.reset
  | .refused _ => State.reset

/-- STATUS after an operation. -/
def statusAfter (i : Instr) (s : State) : Word := busRead (after (exec i s)) 0x0C#8

/-! ## Decoding: one word a constructor, `we`, `addr`, `wdata` written out (R26, R80, R81, R89) -/

theorem test_decode_rd : decode (0b0#1 ++ 0b00001100#8 ++ 0x00000000#32) = .rd 0x0C#8 0#32 := by decide
theorem test_decode_wrCtrl : decode (0b1#1 ++ 0b00000100#8 ++ 0x00000001#32) = .wrCtrl 0x04#8 1#32 := by decide
theorem test_decode_cmdNop : decode (0b1#1 ++ 0b00001000#8 ++ 0x00000010#32) = .cmdNop 0x08#8 1#28 := by decide
theorem test_decode_cmdAcquire :
    decode (0b1#1 ++ 0b00001000#8 ++ 0xFFFFFFF1#32) = .cmdAcquire 0x08#8 0xFFFFFFF#28 := by decide
theorem test_decode_cmdDecode : decode (0b1#1 ++ 0b00001000#8 ++ 0x00000002#32) = .cmdDecode 0x08#8 0#28 := by decide
theorem test_decode_cmdReserved3 :
    decode (0b1#1 ++ 0b00001000#8 ++ 0x00000003#32) = .cmdReserved3 0x08#8 0#28 := by decide
theorem test_decode_cmdReserved4To7 :
    decode (0b1#1 ++ 0b00001000#8 ++ 0x00000004#32) = .cmdReserved4To7 0x08#8 0#28 4#4 ∧
    decode (0b1#1 ++ 0b00001000#8 ++ 0x00000007#32) = .cmdReserved4To7 0x08#8 0#28 7#4 := by decide
theorem test_decode_cmdReserved8ToF :
    decode (0b1#1 ++ 0b00001000#8 ++ 0x00000008#32) = .cmdReserved8ToF 0x08#8 0#28 8#4 ∧
    decode (0b1#1 ++ 0b00001011#8 ++ 0x0000001F#32) = .cmdReserved8ToF 0x0B#8 1#28 15#4 := by decide
theorem test_decode_wrStatus : decode (0b1#1 ++ 0b00001100#8 ++ 0x00000022#32) = .wrStatus 0x0C#8 0x22#32 := by decide
theorem test_decode_wrParamTStartLow :
    decode (0b1#1 ++ 0b00010000#8 ++ 0x00000005#32) = .wrParamTStartLow 0x10#8 5#32 := by decide
theorem test_decode_wrParamTStartHigh :
    decode (0b1#1 ++ 0b00010100#8 ++ 0x00012345#32) = .wrParamTStartHigh 0x14#8 0x12345#32 := by decide
theorem test_decode_wrParamMaxWindows :
    decode (0b1#1 ++ 0b00011000#8 ++ 0x00000055#32) = .wrParamMaxWindows 0x18#8 0x55#32 := by decide
theorem test_decode_wrParamBitThreshold :
    decode (0b1#1 ++ 0b00011100#8 ++ 0x12345678#32) = .wrParamBitThreshold 0x1C#8 0x12345678#32 := by decide
theorem test_decode_wrParamRetryBound :
    decode (0b1#1 ++ 0b00100000#8 ++ 0x00000005#32) = .wrParamRetryBound 0x20#8 5#32 := by decide
theorem test_decode_wrParamTSettle :
    decode (0b1#1 ++ 0b00100100#8 ++ 0x01000000#32) = .wrParamTSettle 0x24#8 0x01000000#32 := by decide
theorem test_decode_wrIgnoredId : decode (0b1#1 ++ 0b00000011#8 ++ 0x00000000#32) = .wrIgnoredId 0x03#8 0#32 := by decide
theorem test_decode_wrIgnoredRawLo :
    decode (0b1#1 ++ 0b00101000#8 ++ 0x00000001#32) = .wrIgnoredRawLo 0x28#8 1#32 := by decide
theorem test_decode_wrIgnoredRawHi :
    decode (0b1#1 ++ 0b00101100#8 ++ 0x00000001#32) = .wrIgnoredRawHi 0x2C#8 1#32 := by decide
theorem test_decode_wrIgnoredReading :
    decode (0b1#1 ++ 0b00110000#8 ++ 0x12345678#32) = .wrIgnoredReading 0x30#8 0x12345678#32 := by decide
theorem test_decode_wrIgnoredReserved34 :
    decode (0b1#1 ++ 0b00110111#8 ++ 0x00000001#32) = .wrIgnoredReserved34 0x37#8 1#32 := by decide
theorem test_decode_wrIgnoredReserved38To3C :
    decode (0b1#1 ++ 0b00111000#8 ++ 0x00000001#32) = .wrIgnoredReserved38To3C 0x38#8 1#32 ∧
    decode (0b1#1 ++ 0b00111111#8 ++ 0x00000001#32) = .wrIgnoredReserved38To3C 0x3F#8 1#32 := by decide
theorem test_decode_wrIgnoredReserved40To7C :
    decode (0b1#1 ++ 0b01000000#8 ++ 0xFFFFFFFF#32) = .wrIgnoredReserved40To7C 0x40#8 0xFFFFFFFF#32 ∧
    decode (0b1#1 ++ 0b01111111#8 ++ 0x00000001#32) = .wrIgnoredReserved40To7C 0x7F#8 1#32 := by decide
theorem test_decode_wrIgnoredReserved80ToFC :
    decode (0b1#1 ++ 0b10000000#8 ++ 0x00000001#32) = .wrIgnoredReserved80ToFC 0x80#8 1#32 ∧
    decode (0b1#1 ++ 0b11111111#8 ++ 0x00000001#32) = .wrIgnoredReserved80ToFC 0xFF#8 1#32 := by decide

/-- A number with a bit above bit 40 is rejected by name; the greatest transaction word is not. -/
theorem test_decodeNumber_bounds :
    decodeNumber 0x20000000000 = .error .notATransactionWord ∧
    decodeNumber 0x1FFFFFFFFFF = .ok (.wrIgnoredReserved80ToFC 0xFF#8 0xFFFFFFFF#32) := ⟨rfl, rfl⟩

/-! ## Encoding against the words of spec/95_test_vectors.md -/

theorem test_encode_words :
    encode (.cmdDecode 0x08#8 0#28) = 0x10800000002#41 ∧ encode (.wrStatus 0x0C#8 0x22#32) = 0x10C00000022#41 ∧
    encode (.rd 0x34#8 0#32) = 0x03400000000#41 ∧ encode (.wrParamTSettle 0x24#8 0x01000000#32) = 0x12401000000#41 := by
  decide

/-! ## Well-formedness: each check refuses a term (R80, R81, R89) -/

theorem test_wf_refuses_neighbour_slots :
    (Instr.wrCtrl 0x08#8 0#32).wf = false ∧ (Instr.cmdNop 0x04#8 0#28).wf = false ∧
    (Instr.cmdAcquire 0x0C#8 0#28).wf = false ∧ (Instr.cmdDecode 0x07#8 0#28).wf = false ∧
    (Instr.cmdReserved3 0x0C#8 0#28).wf = false ∧ (Instr.cmdReserved4To7 0x0C#8 0#28 5#4).wf = false ∧
    (Instr.cmdReserved8ToF 0x07#8 0#28 9#4).wf = false ∧ (Instr.wrStatus 0x10#8 0#32).wf = false := by decide
theorem test_wf_refuses_other_params :
    (Instr.wrParamTStartLow 0x14#8 0#32).wf = false ∧ (Instr.wrParamTStartHigh 0x10#8 0#32).wf = false ∧
    (Instr.wrParamMaxWindows 0x1C#8 0#32).wf = false ∧ (Instr.wrParamBitThreshold 0x20#8 0#32).wf = false ∧
    (Instr.wrParamRetryBound 0x1C#8 0#32).wf = false ∧ (Instr.wrParamTSettle 0x28#8 0#32).wf = false := by decide
theorem test_wf_refuses_other_ignored :
    (Instr.wrIgnoredId 0x04#8 0#32).wf = false ∧ (Instr.wrIgnoredRawLo 0x2C#8 0#32).wf = false ∧
    (Instr.wrIgnoredRawHi 0x28#8 0#32).wf = false ∧ (Instr.wrIgnoredReading 0x34#8 0#32).wf = false ∧
    (Instr.wrIgnoredReserved34 0x38#8 0#32).wf = false ∧ (Instr.wrIgnoredReserved38To3C 0x34#8 0#32).wf = false ∧
    (Instr.wrIgnoredReserved38To3C 0x40#8 0#32).wf = false ∧ (Instr.wrIgnoredReserved40To7C 0x3F#8 0#32).wf = false ∧
    (Instr.wrIgnoredReserved40To7C 0x80#8 0#32).wf = false ∧
    (Instr.wrIgnoredReserved80ToFC 0x7F#8 0#32).wf = false := by decide
theorem test_wf_refuses_codes :
    (Instr.cmdReserved4To7 0x08#8 0#28 3#4).wf = false ∧ (Instr.cmdReserved4To7 0x08#8 0#28 8#4).wf = false ∧
    (Instr.cmdReserved8ToF 0x08#8 0#28 7#4).wf = false := by decide

/-! ## One step of each operation -/

/-- V-RD-1, V-RD-12, V-RD-13. -/
theorem test_rd_id :
    (after (exec (.rd 0x03#8 0#32) idle)).rdata = 0x44485431#32 ∧ (after (exec (.rd 0xFC#8 0#32) idle)).rdata = 0#32 := by
  decide
/-- V-RD-15, V-RD-16: a read sees the state before the edge. -/
theorem test_rd_status_before_the_edge :
    (after (exec (.rd 0x0C#8 0#32) (running .decode .startLow))).rdata = 0x01000101#32 ∧
    (after (exec (.rd 0x0C#8 0#32) (validating .decode frame))).rdata.getLsbD 0 = true := by decide
/-- V-WR-1, V-WR-2. -/
theorem test_wrCtrl :
    busRead (after (exec (.wrCtrl 0x04#8 0xFFFFFFFF#32) idle)) 0x04#8 = 1#32 ∧
    (after (exec (.wrCtrl 0x04#8 2#32) { idle with irqEn := true })).irqEn = false := by decide
/-- V-WR-3, V-WR-5. -/
theorem test_wrStatus :
    busRead completed 0x0C#8 = 0x01280046#32 ∧ statusAfter (.wrStatus 0x0C#8 0x22#32) completed = 0x01280044#32 ∧
    statusAfter (.wrStatus 0x0C#8 0#32) completed = 0x01280046#32 := by decide
/-- V-WR-6: a command that completes at the edge sets DONE. -/
theorem test_wrStatus_at_completion :
    (after (exec (.wrStatus 0x0C#8 2#32) (validating .decode frame))).done = true := by decide
/-- V-WR-9. -/
theorem test_wrParamTStartLow :
    busRead (after (exec (.wrParamTStartLow 0x10#8 0xFFFFFFFF#32) idle)) 0x10#8 = 0x00FFFFFF#32 := by decide
/-- V-WR-10. -/
theorem test_wrParamTStartHigh :
    busRead (after (exec (.wrParamTStartHigh 0x14#8 0x12345#32) idle)) 0x14#8 = 0x2345#32 := by decide
theorem test_wrParamMaxWindows :
    busRead (after (exec (.wrParamMaxWindows 0x18#8 0x153#32) idle)) 0x18#8 = 0x53#32 := by decide
/-- V-WR-7. -/
theorem test_wrParamBitThreshold :
    busRead (after (exec (.wrParamBitThreshold 0x1C#8 0x12345678#32) idle)) 0x1C#8 = 0x78#32 := by decide
/-- V-WR-11. -/
theorem test_wrParamBitThreshold_busy :
    let t := after (exec (.wrParamBitThreshold 0x1C#8 20#32) (running .decode .startLow))
    t.bitThreshold = 16#8 ∧ t.rej = true := by decide
/-- V-WR-12. -/
theorem test_wrParamRetryBound_busy :
    let t := after (exec (.wrParamRetryBound 0x20#8 0#32) { running .decode .startLow with rej := true })
    t.retryBound = 5#8 ∧ t.rej = true := by decide
/-- V-WR-8. -/
theorem test_wrParamTSettle :
    (after (exec (.wrParamTSettle 0x24#8 0x01000000#32) idle)).tSettle = 0#24 := by decide
/-- V-WR-13. -/
theorem test_wrIgnoredReading :
    let t := after (exec (.wrIgnoredReading 0x30#8 0x12345678#32) completed)
    busRead t 0x30#8 = 0x00E601C2#32 ∧ t.rej = false := by decide
/-- V-WR-14. -/
theorem test_wrIgnored_reset :
    statusAfter (.wrIgnoredId 0x00#8 0#32) idle = 0#32 ∧
    statusAfter (.wrIgnoredReserved40To7C 0x40#8 0xFFFFFFFF#32) idle = 0#32 ∧
    statusAfter (.wrIgnoredRawHi 0x2C#8 1#32) idle = 0#32 := by decide
/-- V-WR-13 at the other read-only and reserved offsets. -/
theorem test_wrIgnored_completed :
    busRead (after (exec (.wrIgnoredRawLo 0x28#8 1#32) completed)) 0x28#8 = 0x0017002D#32 ∧
    statusAfter (.wrIgnoredReserved34 0x34#8 1#32) completed = 0x01280046#32 ∧
    statusAfter (.wrIgnoredReserved38To3C 0x3C#8 1#32) completed = 0x01280046#32 := by decide
/-- V-WR-15. -/
theorem test_wrIgnoredReserved80ToFC_busy :
    statusAfter (.wrIgnoredReserved80ToFC 0x80#8 1#32) (running .decode .startLow) = 0x01000101#32 := by decide
/-- V-CMD-1, V-CMD-2. -/
theorem test_cmdNop :
    statusAfter (.cmdNop 0x08#8 0#28) idle = 0#32 ∧
    (after (exec (.cmdNop 0x08#8 0#28) (running .decode .capture))).rej = false := by decide
/-- V-CMD-4. -/
theorem test_cmdAcquire :
    statusAfter (.cmdAcquire 0x08#8 0#28) idle = 0x01000101#32 ∧
    (after (exec (.cmdAcquire 0x08#8 0#28) idle)).mode = .acquire := by decide
/-- V-CMD-12. -/
theorem test_cmdAcquire_bound_zero :
    let t := after (exec (.cmdAcquire 0x08#8 0#28) { idle with retryBound := 0#8 })
    busRead t 0x0C#8 = 0x0000001A#32 ∧ t.dqOe = false := by decide
/-- V-CMD-3, V-CMD-11. -/
theorem test_cmdDecode :
    statusAfter (.cmdDecode 0x08#8 0#28) idle = 0x01000101#32 ∧
    statusAfter (.cmdDecode 0x08#8 0#28) { completed with rej := true } = 0x01000121#32 ∧
    busRead (after (exec (.cmdDecode 0x08#8 0#28) completed)) 0x28#8 = 0#32 := by decide
/-- V-CMD-13: a start command in the cycle of a completion is rejected. -/
theorem test_cmdDecode_at_completion :
    let t := after (exec (.cmdDecode 0x08#8 0#28) (validating .decode frame))
    t.rej = true ∧ t.done = true ∧ t.phase = .idle := by decide
/-- V-CMD-7. -/
theorem test_cmdReserved_idle :
    statusAfter (.cmdReserved3 0x08#8 0#28) idle = 0x20#32 ∧ statusAfter (.cmdReserved4To7 0x08#8 0#28 7#4) idle = 0x20#32 ∧
    statusAfter (.cmdReserved8ToF 0x08#8 0#28 15#4) idle = 0x20#32 := by decide
/-- V-CMD-8. -/
theorem test_cmdReserved_busy :
    statusAfter (.cmdReserved8ToF 0x08#8 0#28 9#4) (running .decode .startLow) = 0x01000121#32 := by decide

/-! ## One cycle of each phase, and of reset -/

/-- V-HS-1, V-HS-3: the leaving cycle of START_LOW. -/
theorem test_startLow_exit :
    let t := after (step { running .decode .startLow with tStartLow := 3#24, timer := 3#24 })
    t.phase = .startHigh ∧ t.dqOe = true ∧ t.dqO = true ∧ t.timer = 0#24 := by decide
/-- V-HS-2: a tick is counted before the length is reached. -/
theorem test_startLow_tick :
    (after (step { running .decode .startLow with tStartLow := 2#24, timer := 1#24 })).timer = 2#24 := by decide
/-- V-HS-6. -/
theorem test_enter_capture :
    let t := after (step { running .decode .startHigh with tStartHigh := 0#16 })
    t.phase = .capture ∧ t.dqOe = false ∧ t.win = 0#8 ∧ t.prev = true ∧ t.cnt = 0#8 := by decide
/-- V-CAP-1, V-CAP-3: the 255th equal sample reaches the cap. -/
theorem test_capture_cap :
    let t := after (step { running .decode .capture with cnt := 254#8 })
    t.phase = .validate ∧ t.capHit = true ∧ t.cnt = 255#8 := by decide
/-- V-CAP-4: the window limit comes before the tick's sample. -/
theorem test_capture_limit :
    let t := after (step { running .decode .capture with maxWindows := 0#8, cnt := 254#8 })
    t.phase = .validate ∧ t.capHit = false := by decide
/-- V-BIT-1: durations 16 and 17 give 0 and 1. -/
theorem test_capture_bit :
    (after (step { running .decode .capture with win := 4#8, cnt := 16#8, sync2 := false })).fb.b0 = 0#8 ∧
    (after (step { running .decode .capture with win := 4#8, cnt := 17#8, sync2 := false })).fb.b0 = 1#8 := by decide
/-- V-BIT-6, V-BIT-8: no bit from windows 2 and 3, nor from a 41st bit window. -/
theorem test_capture_no_bit :
    (after (step { running .decode .capture with win := 2#8, cnt := 30#8, sync2 := false })).nbits = 0#6 ∧
    (after (step { running .decode .capture with win := 5#8, cnt := 200#8, prev := false })).nbits = 0#6 ∧
    (after (step { running .decode .capture with win := 84#8, nbits := 40#6, sync2 := false })).nbits = 40#6 := by decide
/-- V-VAL-3: a sum that wraps, and the most negative temperature. -/
theorem test_validate_ok :
    let t := after (step (validating .decode ⟨255#8, 255#8, 255#8, 255#8, 252#8⟩))
    busRead t 0x30#8 = 0xFA0B0AF5#32 ∧ t.ok = true ∧ t.phase = .idle := by decide
/-- V-VAL-9, V-VAL-10. -/
theorem test_validate_fails :
    (after (step (validating .decode ⟨0#8, 0#8, 0#8, 0#8, 1#8⟩))).err = .checksumMismatch ∧
    (after (step { validating .decode frame with nbits := 39#6 })).err = .incomplete ∧
    (after (step (validating .acquire badFrame))).phase = .settle := by decide
/-- V-RTY-2, V-RTY-5: the end of the settle delay. -/
theorem test_settle_exit :
    (after (step { running .acquire .settle with tSettle := 0#24, retryBound := 1#8 })).err = .exhausted ∧
    (after (step { running .acquire .settle with tSettle := 0#24, retryBound := 2#8 })).attempts = 2#8 := by decide
/-- V-RST-1, V-RST-2. -/
theorem test_reset_wins :
    let t := after (step { running .decode .startLow with
      tStartLow := 5#24, irqEn := true
      inputs := [{ pins true with rstN := false, busSel := true, busWe := true, busAddr := 0x08#8, busWdata := 1#32 }] })
    t.phase = .idle ∧ t.tStartLow = 18000#24 ∧ t.dqOe = false ∧ t.irqEn = false := by decide
/-- V-IRQ-1, V-IRQ-2. -/
theorem test_irq :
    irqO (after (step { validating .decode frame with irqEn := true })) = true ∧
    irqO (after (exec (.wrStatus 0x0C#8 2#32) { completed with irqEn := true })) = false := by decide
/-- A transaction word presented by withFetchWord is the one the next step runs. -/
theorem test_withFetchWord :
    (after (step (State.reset.withFetchWord 41 0x10800000002))).phase = .startLow ∧
    (after (step (State.reset.withFetchWord 41 0x00000000000))).rdata = 0x44485431#32 := by decide

/-! ## Witnesses: the hypotheses of the statements can be met, at the boundary values of each clause -/

/-- DecodeOfEncode, WordLiesInOneTableRow: well-formed operations, the ends of every range among them. -/
theorem witness_wellFormed :
    (Instr.rd 0xFF#8 0#32).wf = true ∧ (Instr.wrCtrl 0x07#8 0#32).wf = true ∧
    (Instr.cmdReserved4To7 0x0B#8 0#28 4#4).wf = true ∧ (Instr.cmdReserved4To7 0x08#8 0#28 7#4).wf = true ∧
    (Instr.cmdReserved8ToF 0x08#8 0#28 8#4).wf = true ∧ (Instr.cmdReserved8ToF 0x08#8 0#28 15#4).wf = true ∧
    (Instr.wrIgnoredReserved38To3C 0x38#8 0#32).wf = true ∧ (Instr.wrIgnoredReserved38To3C 0x3F#8 0#32).wf = true ∧
    (Instr.wrIgnoredReserved40To7C 0x40#8 0#32).wf = true ∧ (Instr.wrIgnoredReserved40To7C 0x7F#8 0#32).wf = true ∧
    (Instr.wrIgnoredReserved80ToFC 0x80#8 0#32).wf = true ∧ (Instr.wrIgnoredReserved80ToFC 0xFF#8 0#32).wf = true ∧
    (tableRow (.rd 0x00#8 0#32)).holds 0x000FFFFFFFF#41 = true := by decide

/-- DecodeProcedure: an address and a code for every clause, at the ends of the ranges. -/
theorem witness_decodeProcedure :
    (0x07#8 &&& 0xFC#8 = 0x04#8) ∧ (0x0B#8 &&& 0xFC#8 = 0x08#8) ∧
    (0xFFFFFFF0#32 &&& 0xF#32 = 0#32) ∧ (0x11#32 &&& 0xF#32 = 1#32) ∧ (0x12#32 &&& 0xF#32 = 2#32) ∧
    (0x13#32 &&& 0xF#32 = 3#32) ∧ (4#32 ≤ 0x14#32 &&& 0xF#32) ∧ (0x17#32 &&& 0xF#32 ≤ 7#32) ∧
    (8#32 ≤ 0x18#32 &&& 0xF#32) ∧ (8#32 ≤ 0x1F#32 &&& 0xF#32) ∧
    (0x0F#8 &&& 0xFC#8 = 0x0C#8) ∧ (0x13#8 &&& 0xFC#8 = 0x10#8) ∧ (0x17#8 &&& 0xFC#8 = 0x14#8) ∧
    (0x1B#8 &&& 0xFC#8 = 0x18#8) ∧ (0x1F#8 &&& 0xFC#8 = 0x1C#8) ∧ (0x23#8 &&& 0xFC#8 = 0x20#8) ∧
    (0x27#8 &&& 0xFC#8 = 0x24#8) ∧ (0x03#8 &&& 0xFC#8 = 0x00#8) ∧ (0x2B#8 &&& 0xFC#8 = 0x28#8) ∧
    (0x2F#8 &&& 0xFC#8 = 0x2C#8) ∧ (0x33#8 &&& 0xFC#8 = 0x30#8) ∧ (0x37#8 &&& 0xFC#8 = 0x34#8) ∧
    (0x3B#8 &&& 0xFC#8 = 0x38#8) ∧ (0x3F#8 &&& 0xFC#8 = 0x3C#8) ∧
    (0x40#8 ≤ 0x43#8 &&& 0xFC#8 ∧ 0x43#8 &&& 0xFC#8 ≤ 0x7C#8) ∧ (0x40#8 ≤ 0x7F#8 &&& 0xFC#8 ∧ 0x7F#8 &&& 0xFC#8 ≤ 0x7C#8) ∧
    (0x80#8 ≤ 0x83#8 &&& 0xFC#8) ∧ (0x80#8 ≤ 0xFF#8 &&& 0xFC#8) := by decide

/-- The pins of a cycle with a transaction. -/
def bus (we : Bool) (addr : Offset) (wdata : Word) : Pins :=
  { pins true with busSel := true, busWe := we, busAddr := addr, busWdata := wdata }

/-- A state whose coming cycle carries a transaction. -/
def presenting (s : State) (we : Bool) (addr : Offset) (wdata : Word) : State :=
  { s with inputs := bus we addr wdata :: s.inputs }

/-- StepRunsTheDecodedTransaction, ReadDataOnlyOnReads: a read, a write and no transaction. -/
theorem witness_transactions :
    ((presenting idle true 0x08#8 2#32).pins.rstN = true ∧ (presenting idle true 0x08#8 2#32).pins.busSel = true) ∧
    ((presenting idle false 0x0C#8 0#32).pins.rstN = true ∧ (presenting idle false 0x0C#8 0#32).pins.busSel = true ∧
      (presenting idle false 0x0C#8 0#32).pins.busWe = false) ∧
    (idle.pins.rstN = true ∧ idle.pins.busSel = false) := by decide

/-- ReadHasNoSideEffect, WrParamStoresOnlyWhenIdle, ParametersReadBackTruncated, IgnoredWritesAndNopChangeNothing,
DecodeAcceptedOnlyWhenIdle, IdleCycleOnlyShiftsTheSynchronizer, CommandBoundFromAcceptance: an idle state; and the
busy states of HostCannotDisturbARunningCommand and of the rejections, in every phase. -/
theorem witness_idle_and_busy :
    idle.phase = .idle ∧ completed.phase = .idle ∧ (running .decode .startLow).phase ≠ .idle ∧
    (running .decode .startHigh).phase ≠ .idle ∧ (running .acquire .capture).phase ≠ .idle ∧
    (running .decode .validate).phase ≠ .idle ∧ (running .acquire .settle).phase ≠ .idle := by decide

/-- RegisterBytesAtHostAddresses: the ends of the byte numbers. -/
theorem witness_bytes : 0 < 4 ∧ 3 < 4 := by decide

/-- AcquireAcceptedOnlyWhenIdle, AcquireWithBoundZeroExhaustsAtOnce, AcceptanceForgetsThePast: RETRY_BOUND 1, 255, 0. -/
theorem witness_acquire :
    (({ idle with retryBound := 1#8 } : State).phase = .idle ∧ ({ idle with retryBound := 1#8 } : State).retryBound ≠ 0#8) ∧
    (({ idle with retryBound := 255#8 } : State).phase = .idle ∧
      ({ idle with retryBound := 255#8 } : State).retryBound ≠ 0#8) ∧
    (({ idle with retryBound := 0#8 } : State).phase = .idle ∧ ({ idle with retryBound := 0#8 } : State).retryBound = 0#8) ∧
    (idle.phase = .idle ∧ completed.phase = .idle ∧ SameParams idle completed ∧ idle.retryBound ≠ 0#8) := by decide

/-- ConfigurationChangesOnlyByItsWrites: an operation that keeps the parameters while busy, and one that changes each. -/
theorem witness_configuration :
    (exec (.rd 0x00#8 0#32) (running .decode .capture) = .next (after (exec (.rd 0x00#8 0#32) (running .decode .capture))) ∧
      (running .decode .capture).phase ≠ .idle) ∧
    (after (exec (.wrParamTStartLow 0x10#8 1#32) idle)).tStartLow ≠ idle.tStartLow ∧
    (after (exec (.wrParamTStartHigh 0x14#8 1#32) idle)).tStartHigh ≠ idle.tStartHigh ∧
    (after (exec (.wrParamMaxWindows 0x18#8 1#32) idle)).maxWindows ≠ idle.maxWindows ∧
    (after (exec (.wrParamBitThreshold 0x1C#8 1#32) idle)).bitThreshold ≠ idle.bitThreshold ∧
    (after (exec (.wrParamRetryBound 0x20#8 1#32) idle)).retryBound ≠ idle.retryBound ∧
    (after (exec (.wrParamTSettle 0x24#8 1#32) idle)).tSettle ≠ idle.tSettle ∧
    (after (exec (.wrCtrl 0x04#8 1#32) idle)).irqEn ≠ idle.irqEn := by
  refine ⟨⟨rfl, ?_⟩, ?_⟩ <;> decide

/-- RejFollowsTheRejections: a rejected command, a flag that is cleared, a reset edge and a cycle without a transaction. -/
theorem witness_rej :
    exec (.cmdDecode 0x08#8 0#28) (running .decode .startLow) =
      .next (after (exec (.cmdDecode 0x08#8 0#28) (running .decode .startLow))) ∧
    (after (exec (.cmdDecode 0x08#8 0#28) (running .decode .startLow))).rej = true ∧
    exec (.wrStatus 0x0C#8 0x20#32) { idle with rej := true } =
      .next (after (exec (.wrStatus 0x0C#8 0x20#32) { idle with rej := true })) ∧
    (after (exec (.wrStatus 0x0C#8 0x20#32) { idle with rej := true })).rej = false ∧
    step idle = .next (after (step idle)) ∧ idle.pins.rstN = true ∧ idle.pins.busSel = false ∧
    (let s := { idle with inputs := [{ pins true with rstN := false }] }
     step s = .next (after (step s)) ∧ s.pins.rstN = false) := by
  refine ⟨rfl, ?_, rfl, ?_, rfl, ?_, ?_, rfl, ?_⟩ <;> decide

/-- CompletionEdges: the three completions, and edges beside them. -/
theorem witness_completion :
    setsDone (validating .decode badFrame) = true ∧ setsDone (validating .acquire frame) = true ∧
    setsDone { running .acquire .settle with tSettle := 0#24, retryBound := 1#8 } = true ∧
    setsDone (validating .acquire badFrame) = false ∧
    setsDone { running .acquire .settle with tSettle := 0#24, retryBound := 2#8 } = false ∧ setsDone completed = false := by
  decide

/-- CompletionBeatsTheHostWrite: a DECODE that ends in the cycle of a start command, an ACQUIRE exhausted in the cycle of a
parameter write, and a running command that does not end. -/
theorem witness_completion_with_command :
    (let s := presenting (validating .decode badFrame) true 0x08#8 1#32
     s.pins.rstN = true ∧ s.phase ≠ .idle ∧ AtCompletion s ∧ s.pins.busSel = true ∧
       decode s.pins.word = .cmdAcquire 0x08#8 0#28) ∧
    (let s := presenting { running .acquire .settle with tSettle := 0#24, retryBound := 1#8 } true 0x24#8 7#32
     s.pins.rstN = true ∧ s.phase ≠ .idle ∧ AtCompletion s ∧ s.pins.busSel = true ∧
       decode s.pins.word = .wrParamTSettle 0x24#8 7#32) ∧
    (let s := validating .acquire badFrame
     s.pins.rstN = true ∧ s.phase ≠ .idle ∧ ¬ AtCompletion s) := by decide

/-- DoneIsSticky: the two ways to clear DONE. -/
theorem witness_done_cleared :
    (exec (.wrStatus 0x0C#8 2#32) completed = .next (after (exec (.wrStatus 0x0C#8 2#32) completed)) ∧
      completed.done = true ∧ (after (exec (.wrStatus 0x0C#8 2#32) completed)).done = false) ∧
    (exec (.cmdDecode 0x08#8 0#28) completed = .next (after (exec (.cmdDecode 0x08#8 0#28) completed)) ∧
      (after (exec (.cmdDecode 0x08#8 0#28) completed)).done = false) := by
  refine ⟨⟨rfl, ?_, ?_⟩, rfl, ?_⟩ <;> decide

/-- InterruptLine: a completing cycle with a clearing write, writes that clear DONE while idle and while busy, the writes of
IRQ_EN, an acceptance with and without RETRY_BOUND = 0, and a rejection while busy, completing and not. -/
theorem witness_interrupt :
    (let s := presenting { validating .acquire frame with irqEn := true } true 0x0C#8 2#32
     OutcomeInv s ∧ s.pins.rstN = true ∧ AtCompletion s ∧ s.phase ≠ .idle) ∧
    (¬ AtCompletion completed ∧ ¬ AtCompletion (running .decode .capture) ∧ (2#32).getLsbD 1 = true) ∧
    (completed.done = true ∧ (0#32).getLsbD 0 = false ∧ (1#32).getLsbD 0 = true) ∧
    (completed.phase = .idle ∧ ({ completed with retryBound := 0#8 } : State).phase = .idle) ∧
    ((running .decode .capture).phase ≠ .idle) := by
  refine ⟨⟨⟨?_, ?_, fun h => absurd h ?_⟩, ?_, ?_, ?_⟩, ?_, ?_, ?_, ?_⟩ <;> decide

/-- ResultsChangeOnlyAtAcceptanceAndSuccess: a command in IDLE that changes the results to 0, and a whole frame with a valid
checksum that is committed. -/
theorem witness_results :
    (let a := presenting completed true 0x08#8 2#32
     a.pins.rstN = true ∧ step a = .next (after (step a)) ∧ a.phase = .idle ∧ a.pins.busSel = true ∧
       decode a.pins.word = .cmdDecode 0x08#8 0#28 ∧ (after (step a)).raw ≠ a.raw) ∧
    (let v := validating .decode frame
     v.pins.rstN = true ∧ step v = .next (after (step v)) ∧ v.phase = .validate ∧ 40#6 ≤ v.nbits ∧
       v.fb.b4.toNat = (v.fb.b0.toNat + v.fb.b1.toNat + v.fb.b2.toNat + v.fb.b3.toNat) % 256 ∧
       (after (step v)).raw ≠ v.raw) := by
  refine ⟨⟨?_, rfl, ?_, ?_, ?_, ?_⟩, ?_, rfl, ?_, ?_, ?_, ?_⟩ <;> decide

/-- StartLowCycle, StartHighCycle, SettleCycle: the last counted tick, the leaving cycle, and a cycle without a tick. -/
theorem witness_timed_phases :
    (let s := { running .decode .startLow with timer := 17999#24 }
     s.pins.rstN = true ∧ s.phase = .startLow ∧ ¬ s.tStartLow ≤ s.timer ∧ s.pins.tickI = true) ∧
    (let s := { running .decode .startLow with timer := 18000#24 }
     s.pins.rstN = true ∧ s.phase = .startLow ∧ s.tStartLow ≤ s.timer) ∧
    (let s := { running .decode .startLow with inputs := [pins false] }
     s.pins.rstN = true ∧ s.phase = .startLow ∧ ¬ s.tStartLow ≤ s.timer ∧ s.pins.tickI = false) ∧
    (let s := { running .decode .startHigh with timer := 39#24 }
     s.pins.rstN = true ∧ s.phase = .startHigh ∧ ¬ s.tStartHigh.toNat ≤ s.timer.toNat ∧ s.pins.tickI = true) ∧
    (let s := { running .decode .startHigh with timer := 40#24 }
     s.pins.rstN = true ∧ s.phase = .startHigh ∧ s.tStartHigh.toNat ≤ s.timer.toNat) ∧
    (let s := { running .acquire .settle with timer := 99999#24 }
     s.pins.rstN = true ∧ s.phase = .settle ∧ ¬ s.tSettle ≤ s.timer ∧ s.pins.tickI = true) ∧
    (let s := { running .acquire .settle with timer := 100000#24, attempts := 4#8 }
     s.pins.rstN = true ∧ s.phase = .settle ∧ s.tSettle ≤ s.timer ∧ s.attempts < s.retryBound) ∧
    (let s := { running .acquire .settle with timer := 100000#24, attempts := 5#8 }
     s.pins.rstN = true ∧ s.phase = .settle ∧ s.tSettle ≤ s.timer ∧ ¬ s.attempts < s.retryBound) := by decide

/-- CaptureCycleWithoutLevelChange: the window limit, no tick, the sample before the cap and the sample at it. -/
theorem witness_capture_same_level :
    (let s := { running .decode .capture with win := 85#8 }
     s.pins.rstN = true ∧ s.phase = .capture ∧ s.cnt ≤ 254#8 ∧
       (s.win < s.maxWindows → s.pins.tickI = true → s.sync2 = s.prev) ∧
       s.maxWindows ≤ s.win) ∧
    (let s := { running .decode .capture with win := 84#8, sync2 := false, inputs := [pins false] }
     s.pins.rstN = true ∧ s.phase = .capture ∧ s.cnt ≤ 254#8 ∧
       (s.win < s.maxWindows → s.pins.tickI = true → s.sync2 = s.prev) ∧
       ¬ s.maxWindows ≤ s.win ∧ s.pins.tickI = false) ∧
    (let s := { running .decode .capture with cnt := 254#8 }
     s.pins.rstN = true ∧ s.phase = .capture ∧ s.cnt ≤ 254#8 ∧
       (s.win < s.maxWindows → s.pins.tickI = true → s.sync2 = s.prev) ∧
       ¬ s.maxWindows ≤ s.win ∧ s.pins.tickI = true) ∧
    (let s := { running .decode .capture with cnt := 253#8 }
     s.pins.rstN = true ∧ s.phase = .capture ∧ s.cnt ≤ 254#8 ∧
       (s.win < s.maxWindows → s.pins.tickI = true → s.sync2 = s.prev) ∧
       s.cnt ≠ 254#8) := by decide

/-- CaptureCycleWithLevelChange: window 4 with a bit, window 3 without, and a frame that is full. -/
theorem witness_capture_level_change :
    (let s := { running .decode .capture with win := 4#8, cnt := 17#8, nbits := 39#6, sync2 := false }
     s.pins.rstN = true ∧ s.phase = .capture ∧ s.win < s.maxWindows ∧ s.pins.tickI = true ∧ s.sync2 ≠ s.prev ∧
       4 ≤ s.win.toNat ∧ s.win.toNat % 2 = 0 ∧ s.nbits.toNat < 40) ∧
    (let s := { running .decode .capture with win := 3#8, cnt := 17#8, prev := false }
     s.pins.rstN = true ∧ s.phase = .capture ∧ s.win < s.maxWindows ∧ s.pins.tickI = true ∧ s.sync2 ≠ s.prev ∧
       ¬ 4 ≤ s.win.toNat) ∧
    (let s := { running .decode .capture with win := 84#8, cnt := 1#8, nbits := 40#6, sync2 := false }
     s.pins.rstN = true ∧ s.phase = .capture ∧ s.win < s.maxWindows ∧ s.pins.tickI = true ∧ s.sync2 ≠ s.prev ∧
       ¬ s.nbits.toNat < 40) := by decide

/-- ValidateFailure: 39 bits, and a checksum off by one. -/
theorem witness_validate_failure :
    (let s := { validating .decode frame with nbits := 39#6 }
     s.pins.rstN = true ∧ s.phase = .validate ∧ s.nbits < 40#6) ∧
    (let s := validating .acquire badFrame
     s.pins.rstN = true ∧ s.phase = .validate ∧ ¬ s.nbits < 40#6 ∧
       s.fb.b4.toNat ≠ (s.fb.b0.toNat + s.fb.b1.toNat + s.fb.b2.toNat + s.fb.b3.toNat) % 256) := by decide

/-- ValidateSuccess: a sum that does not wrap, and one that does, with a negative temperature. -/
theorem witness_validate_success :
    (let s := validating .decode frame
     s.pins.rstN = true ∧ s.phase = .validate ∧ 40#6 ≤ s.nbits ∧
       s.fb.b4.toNat = (s.fb.b0.toNat + s.fb.b1.toNat + s.fb.b2.toNat + s.fb.b3.toNat) % 256) ∧
    (let s := validating .acquire ⟨255#8, 255#8, 255#8, 255#8, 252#8⟩
     s.pins.rstN = true ∧ s.phase = .validate ∧ 40#6 ≤ s.nbits ∧
       s.fb.b4.toNat = (s.fb.b0.toNat + s.fb.b1.toNat + s.fb.b2.toNat + s.fb.b3.toNat) % 256) := by decide

/-- OnlyLegalTransitions, SampleLagsTwoCycles: two steps with reset inactive. -/
theorem witness_two_steps :
    let t := after (step idle)
    idle.pins.rstN = true ∧ t.pins.rstN = true ∧ step idle = .next t ∧ step t = .next (after (step t)) := by
  refine ⟨?_, ?_, rfl, rfl⟩ <;> decide

/-- StartLowHoldsExactly: two strobes of two counted, after which the leaving cycle follows. -/
theorem witness_startLow_run :
    let s := { running .decode .startLow with tStartLow := 2#24, inputs := [pins true, pins false, pins true, pins true] }
    s.phase = .startLow ∧ s.timer = 0#24 ∧ 3 ≤ s.inputs.length ∧ (∀ p ∈ s.inputs, p.rstN = true) ∧
      (∀ j < 3, ((s.inputs.take j).filter (·.tickI)).length < s.tStartLow.toNat) ∧
      ((s.inputs.take 3).filter (·.tickI)).length = s.tStartLow.toNat ∧
      ∃ t, Host.Core.run core 3 s = .next t ∧ t.pins.rstN = true := by
  refine ⟨?_, ?_, ?_, ?_, ?_, ?_, _, rfl, ?_⟩ <;> decide

/-- WindowDurationIsItsRunLength: no further sample, and as many as the cap leaves. -/
theorem witness_window :
    (running .decode .capture).phase = .capture ∧
    (running .decode .capture).win < (running .decode .capture).maxWindows ∧
    (running .decode .capture).cnt.toNat + 0 ≤ 254 ∧ (running .decode .capture).cnt.toNat + 254 ≤ 254 := by decide

/-- FrameHoldsFortyBitsMsbFirst: an empty frame and forty bits. -/
theorem witness_forty_bits :
    (running .decode .capture).nbits = 0#6 ∧ (running .decode .capture).fb = ⟨0#8, 0#8, 0#8, 0#8, 0#8⟩ ∧
    (List.replicate 40 true).length = 40 := by decide

/-- NoTicksNoEnd: each of the four phases, one tick before its end. -/
theorem witness_no_ticks :
    3 ≤ idle.inputs.length ∧ (∀ p ∈ idle.inputs, p.rstN = true ∧ p.tickI = false) ∧
    (let s := { running .decode .startLow with timer := 17999#24, inputs := idle.inputs }
     s.phase = .startLow ∧ s.timer < s.tStartLow) ∧
    (let s := { running .decode .startHigh with timer := 39#24, inputs := idle.inputs }
     s.phase = .startHigh ∧ s.timer < s.tStartHigh.setWidth 24) ∧
    (let s := { running .acquire .settle with timer := 99999#24, inputs := idle.inputs }
     s.phase = .settle ∧ s.timer < s.tSettle) ∧
    (let s := { running .acquire .capture with win := 84#8, inputs := idle.inputs }
     s.phase = .capture ∧ s.win < s.maxWindows) := by decide

/-- The invariants hold in a state in the middle of a command. -/
theorem witness_invariants : BlockInv (running .acquire .startLow) := by
  refine ⟨?_, ⟨?_, ?_, ?_⟩, ?_, ?_, ⟨?_, ?_⟩, ⟨?_, ?_⟩, ?_, ⟨?_, ?_, fun h => absurd h ?_⟩, ?_, ?_, ?_, ?_⟩ <;> decide

/-- TicksBringTheEndNearer, EveryCommandCompletes: a command with one cycle left, and its inputs. -/
theorem witness_last_cycle :
    let s := validating .decode frame
    BlockInv s ∧ s.phase ≠ .idle ∧ s.pins.rstN = true ∧ s.pins.tickI = true ∧ step s = .next (after (step s)) ∧
      cyclesLeft s ≤ s.inputs.length ∧ ∀ p ∈ s.inputs, p.rstN = true ∧ p.tickI = true := by
  refine ⟨⟨?_, ⟨?_, ?_, ?_⟩, ?_, ?_, ⟨?_, ?_⟩, ⟨?_, ?_⟩, ?_, ⟨?_, ?_, fun h => absurd h ?_⟩, ?_, ?_, ?_, ?_⟩,
    ?_, ?_, ?_, rfl, ?_, ?_⟩ <;> decide

/-- ResetWinsOverEverything: reset in the middle of a command, with a read presented and without. -/
theorem witness_reset :
    ({ running .decode .capture with inputs := [{ bus false 0x10#8 0#32 with rstN := false }] } : State).pins.rstN = false ∧
    ({ running .decode .capture with inputs := [{ pins true with rstN := false }] } : State).pins.rstN = false := by decide

/-- LineDriveFollowsThePhase, FrameStaysRightAligned, AttemptsStayBounded, ResultsAreZeroOrValid,
EveryStepKeepsTheInvariants: a step from a state that meets each invariant. -/
theorem witness_invariant_step :
    let s := running .acquire .startLow
    BlockInv s ∧ LineInv s ∧ FrameInv s ∧ AttemptsInv s ∧ OutcomeInv s ∧ step s = .next (after (step s)) :=
  ⟨witness_invariants, witness_invariants.1, witness_invariants.2.2.2.2.1, witness_invariants.2.2.2.2.2.2.1,
    witness_invariants.2.2.2.2.2.2.2.1, rfl⟩

/-- TooFewWindowsNeverSucceed: a command in START_LOW with MAX_WINDOWS = 82. -/
theorem witness_too_few_windows :
    let s := { running .acquire .startLow with maxWindows := 82#8 }
    BlockInv s ∧ s.maxWindows < 83#8 ∧ s.phase ≠ .idle ∧ step s = .next (after (step s)) := by
  refine ⟨⟨?_, ⟨?_, ?_, ?_⟩, ?_, ?_, ⟨?_, ?_⟩, ⟨?_, ?_⟩, ?_, ⟨?_, ?_, fun h => absurd h ?_⟩, ?_, ?_, ?_, ?_⟩,
    ?_, ?_, rfl⟩ <;> decide

/-- RejectedFrameStaysHidden: in VALIDATE with 40 bits and two frames that both fail, and in CAPTURE with any frame. -/
theorem witness_hidden_frame :
    (let a := validating .decode badFrame
     let f : Frame := ⟨1#8, 2#8, 3#8, 4#8, 5#8⟩
     ¬ (a.phase = .validate ∧ 40#6 ≤ a.nbits ∧ (a.fb.b4 = checksum a.fb ∨ f.b4 = checksum f))) ∧
    (let a := running .decode .capture
     ¬ (a.phase = .validate ∧ 40#6 ≤ a.nbits ∧ (a.fb.b4 = checksum a.fb ∨ frame.b4 = checksum frame))) := by decide

/-- CommandDependsOnTicksAndSamplesOnly: the same point of a command with different flags, line, and bus. -/
theorem witness_same_command :
    let a := running .acquire .capture
    let b := { presenting (running .acquire .capture) true 0x0C#8 0x22#32 with
                done := true, rej := true, irqEn := true, dqOe := true, sync1 := false }
    SameCommand a b ∧ a.phase ≠ .idle ∧ a.pins.rstN = true ∧ b.pins.rstN = true ∧ a.pins.tickI = b.pins.tickI ∧
      (a.phase = .capture → a.sync2 = b.sync2) ∧ step a = .next (after (step a)) ∧ step b = .next (after (step b)) := by
  refine ⟨?_, ?_, ?_, ?_, ?_, ?_, rfl, rfl⟩ <;> decide

end Sys2Proof.Tests
end

