-- ==== Sys2Proof/Proofs/Equations.lean ====
section
/-! What the branching operations answer in each branch: one equation per phase, per mode and per kind of step. -/

namespace Sys2Proof.Machine

section
variable (tick sample : Bool) (kind : FailKind) (s : State)

/-! A failed attempt, by mode (R196). -/

theorem failAttempt_decode (h : s.mode = .decode) : failAttempt kind s = completeCommand kind.err s := by
  simp [failAttempt, h]
theorem failAttempt_acquire (h : s.mode = .acquire) :
    failAttempt kind s = { s with timer := 0#24, phase := .settle } := by simp [failAttempt, h]

/-! The sequencer, by phase (R132, R133, R150, R190, R211, R242). -/

theorem sequencer_idle (h : s.phase = .idle) : sequencer tick sample s = s := by simp [sequencer, h]
theorem sequencer_startLow (h : s.phase = .startLow) :
    sequencer tick sample s = timedCycle s.tStartLow exitStartLow tick s := by
  simp [sequencer, startLowCycle, h]
theorem sequencer_startHigh (h : s.phase = .startHigh) :
    sequencer tick sample s = timedCycle (s.tStartHigh.setWidth 24) enterCapture tick s := by
  simp [sequencer, startHighCycle, h]
theorem sequencer_capture (h : s.phase = .capture) : sequencer tick sample s = captureCycle tick sample s := by
  simp [sequencer, h]
theorem sequencer_validate (h : s.phase = .validate) : sequencer tick sample s = validateCycle s := by
  simp [sequencer, h]
theorem sequencer_settle (h : s.phase = .settle) :
    sequencer tick sample s = timedCycle s.tSettle exitSettle tick s := by
  simp [sequencer, settleCycle, h]

/-! A step, by its kind (R80, R260). -/

theorem step_of_reset (hr : s.pins.rstN = false) : step s = .next (resetEdge s) := by
  simp [step, resetCycle, hr]
theorem step_of_quiet (hr : s.pins.rstN = true) (hb : s.pins.busSel = false) : step s = .next (edge s) := by
  simp [step, quietCycle, hr, hb]
theorem step_of_transaction (hr : s.pins.rstN = true) (hb : s.pins.busSel = true) :
    step s = exec (decode s.pins.word) s := by simp [step, hr, hb]

end

/-- A step with reset inactive is a cycle of one of the host's kinds. -/
theorem cycleKind_of_step {s t : State} (hr : s.pins.rstN = true) (h : step s = .next t) : CycleKind s t := by
  rcases step_cases h with ⟨hr', _⟩ | ⟨_, _, e⟩ | ⟨_, _, e⟩
  · simp [hr] at hr'
  · exact .inl ⟨by rw [e], .inl (by rw [e])⟩
  · exact exec_cases e

end Sys2Proof.Machine
end

