-- ==== Sys2Proof/Proofs/StateInvariants.lean ====
section
/-! The invariants of the block. For each: the reset state has it whatever the model's own fields hold, every transition of
the sequencer keeps it, and the acceptance of a command keeps it or sets it up; `step_keeps` puts the parts together.
Four invariants stand alone for every step as obligations of their own; BitCountInv needs FreshInv (capture must start
with no bit), and ErrInv needs AttemptsInv (EXHAUSTED is left to ACQUIRE because a DECODE never settles). -/

namespace Sys2Proof.Machine

/-- The reset state with the model's own fields going on. -/
abbrev resetWith (ins : List Pins) (c : Nat) (r : Word) : State :=
  { State.reset with inputs := ins, cycle := c, rdata := r }

/-! ## The words the transitions compute -/

/-- A count below another of its width does not wrap when it goes up by one. -/
theorem toNat_add_one_of_lt {w : Nat} {x n : BitVec w} (h : x < n) : (x + 1#w).toNat = x.toNat + 1 := by
  have hx : x.toNat < n.toNat := h
  have hn : n.toNat < 2 ^ w := n.isLt
  have h1 : 1 % 2 ^ w = 1 := Nat.mod_eq_of_lt (by omega)
  rw [BitVec.toNat_add, BitVec.toNat_ofNat, h1, Nat.mod_eq_of_lt (by omega)]

/-- A strobe or a window counted below its limit does not pass it (R131, R152). -/
theorem add_one_le_of_lt {w : Nat} {x n : BitVec w} (h : x < n) : x + 1#w ≤ n := by
  rw [BitVec.le_def, toNat_add_one_of_lt h]
  exact h

/-- The windows that carry a bit, in numbers (R170, R173). -/
theorem eligible_iff (k : BitVec 8) (nbits : BitVec 6) :
    eligible k nbits = true ↔ 4 ≤ k.toNat ∧ k.toNat % 2 = 0 ∧ nbits.toNat < 40 := by
  simp [eligible, Config.preambleWindows, Config.frameBits, BitVec.le_def, BitVec.lt_def, and_assoc]

/-- Shifting a bit in is the library's shift with a new lowest bit. -/
theorem shiftInto_eq_shiftConcat (byte : Byte) (b : Bool) : shiftInto byte b = byte.shiftConcat b := by
  ext i hi
  cases i <;> simp [shiftInto, BitVec.getElem_shiftConcat]

/-- A byte that holds `n` bits right-aligned holds `n + 1` after a shift (R172). -/
theorem shiftInto_toNat_lt {byte : Byte} {n : Nat} (b : Bool) (h : byte.toNat < 2 ^ n) :
    (shiftInto byte b).toNat < 2 ^ (n + 1) := by
  rw [shiftInto_eq_shiftConcat, BitVec.toNat_shiftConcat]
  refine lt_of_le_of_lt (Nat.mod_le _ _) ?_
  have hb := b.toNat_le
  rw [Nat.shiftLeft_eq, Nat.pow_succ]
  omega

/-- A shift into byte `i` leaves the other bytes alone (R51, R172). -/
theorem byte_shiftIn (f : Frame) (i j : Fin 5) (b : Bool) :
    (f.shiftIn i b).byte j = if j = i then shiftInto (f.byte j) b else f.byte j := by
  fin_cases i <;> fin_cases j <;> rfl

/-- Every byte of the frame of zeros is 0. -/
@[simp] theorem byte_zero (j : Nat) : Frame.zero.byte j = 0#8 := by
  unfold Frame.byte
  split <;> rfl

section
variable {tick sample : Bool} {s u : State}

/-! ## The line (R21) -/

theorem lineInv_reset (ins : List Pins) (c : Nat) (r : Word) : LineInv (resetWith ins c r) :=
  (by decide : LineInv State.reset)

theorem lineInv_transition (h : SequencerTo tick sample s u) (hs : LineInv s) : LineInv u := by
  obtain ⟨hoe, ho⟩ := hs
  cases h
  case startLowExit p _ => exact ⟨by simp [exitStartLow, hoe, p], by simp [exitStartLow]⟩
  case startHighExit => exact ⟨by simp, by simp⟩
  case settleNext => exact ⟨by simp, by simp⟩
  all_goals simp_all [LineInv, commit, assembleBit]

theorem lineInv_accept (s : State) (m : Mode) (hidle : s.phase = .idle) (hs : LineInv s) :
    LineInv (acceptCommand m s) := by
  obtain ⟨hoe, ho⟩ := hs
  rcases acceptCommand_cases m s with ⟨_, _, e⟩ | ⟨_, e⟩ <;> rw [e]
  · simp [LineInv, exhaustAtOnce, hoe, ho, hidle]
  · simp [LineInv]

/-! ## The timer (R131) -/

theorem timerInv_reset (ins : List Pins) (c : Nat) (r : Word) : TimerInv (resetWith ins c r) :=
  (by decide : TimerInv State.reset)

theorem timerInv_transition (h : SequencerTo tick sample s u) (hs : TimerInv s) : TimerInv u := by
  obtain ⟨hlow, hhigh, hsettle⟩ := hs
  cases h
  case startLowTick p hlt _ => simpa [TimerInv, p] using add_one_le_of_lt hlt
  case startHighTick p hlt _ => simpa [TimerInv, p] using add_one_le_of_lt hlt
  case settleTick p hlt _ => simpa [TimerInv, p] using add_one_le_of_lt hlt
  all_goals simp_all [TimerInv, exitStartLow, commit, assembleBit, BitVec.le_def]

theorem timerInv_accept (s : State) (m : Mode) : TimerInv (acceptCommand m s) := by
  rcases acceptCommand_cases m s with ⟨_, _, e⟩ | ⟨_, e⟩ <;> rw [e]
  · simp [TimerInv, exhaustAtOnce]
  · simp [TimerInv, BitVec.le_def]

/-! ## The window (R151, R152) -/

theorem windowInv_reset (ins : List Pins) (c : Nat) (r : Word) : WindowInv (resetWith ins c r) :=
  (by decide : WindowInv State.reset)

/-- A level change starts the next window at count 1, and the level it tracks alternates (R152). -/
theorem windowInv_levelChange (hs : WindowInv s) (p : s.phase = .capture) (hwin : s.win < s.maxWindows)
    (hsample : sample ≠ s.prev) : 1#8 ≤ 254#8 ∧ (sample = true ↔ (s.win + 1#8).toNat % 2 = 0) := by
  obtain ⟨_, hprev⟩ := hs p
  refine ⟨by decide, ?_⟩
  rw [toNat_add_one_of_lt hwin, Bool.eq_not.mpr hsample, Bool.not_eq_true', ← Bool.not_eq_true, hprev]
  omega

theorem windowInv_transition (h : SequencerTo tick sample s u) (hs : WindowInv s) : WindowInv u := by
  cases h
  case startHighExit => simp [WindowInv]
  case captureSame p _ _ _ hcap =>
    obtain ⟨hcnt, hprev⟩ := hs p
    exact fun _ => ⟨by bv_omega, hprev⟩
  case captureBit p hwin _ hsample _ => exact fun _ => windowInv_levelChange hs p hwin hsample
  case captureNoBit p hwin _ hsample _ => exact fun _ => windowInv_levelChange hs p hwin hsample
  all_goals simp_all [WindowInv, exitStartLow, commit]

theorem windowInv_accept (s : State) (m : Mode) : WindowInv (acceptCommand m s) := by
  rcases acceptCommand_cases m s with ⟨_, _, e⟩ | ⟨_, e⟩ <;> rw [e] <;> simp [WindowInv, exhaustAtOnce]

/-! ## The fresh attempt (R36, R130) -/

theorem freshInv_reset (ins : List Pins) (c : Nat) (r : Word) : FreshInv (resetWith ins c r) :=
  (by decide : FreshInv State.reset)

theorem freshInv_transition (h : SequencerTo tick sample s u) (hs : FreshInv s) : FreshInv u := by
  obtain ⟨hempty, hcap⟩ := hs
  cases h <;> simp_all [FreshInv, exitStartLow, commit, assembleBit]

theorem freshInv_accept (s : State) (m : Mode) : FreshInv (acceptCommand m s) := by
  rcases acceptCommand_cases m s with ⟨_, _, e⟩ | ⟨_, e⟩ <;> rw [e] <;> simp [FreshInv, exhaustAtOnce]

/-! ## The bit count (R152, R156, R170, R173) -/

theorem bitCountInv_reset (ins : List Pins) (c : Nat) (r : Word) : BitCountInv (resetWith ins c r) :=
  (by decide : BitCountInv State.reset)

theorem bitCountInv_transition (h : SequencerTo tick sample s u) (hfresh : FreshInv s) (hs : BitCountInv s) :
    BitCountInv u := by
  cases h
  case startHighExit p _ =>
    obtain ⟨hnbits, _⟩ := hfresh.1 (.inr p)
    simp [BitCountInv, hnbits, BitVec.le_def]
  case captureBit p hwin _ _ helig =>
    obtain ⟨_, hcount⟩ := hs (.inl p)
    obtain ⟨h4, heven, h40⟩ := (eligible_iff _ _).mp helig
    have hlt : s.nbits < 40#6 := h40
    refine fun _ => ⟨add_one_le_of_lt hwin, ?_⟩
    simp only [assembleBit, toNat_add_one_of_lt hwin, toNat_add_one_of_lt hlt]
    omega
  case captureNoBit p hwin _ _ helig =>
    obtain ⟨_, hcount⟩ := hs (.inl p)
    have hnot := mt (eligible_iff s.win s.nbits).mpr (by simp [helig])
    refine fun _ => ⟨add_one_le_of_lt hwin, ?_⟩
    simp only [toNat_add_one_of_lt hwin]
    omega
  all_goals simp_all [BitCountInv, exitStartLow, commit]

theorem bitCountInv_accept (s : State) (m : Mode) : BitCountInv (acceptCommand m s) := by
  rcases acceptCommand_cases m s with ⟨_, _, e⟩ | ⟨_, e⟩ <;> rw [e] <;> simp [BitCountInv, exhaustAtOnce]

/-! ## The frame (R38, R172, R173) -/

theorem frameInv_reset (ins : List Pins) (c : Nat) (r : Word) : FrameInv (resetWith ins c r) :=
  (by decide : FrameInv State.reset)

/-- A bit assembled below 40 leaves the frame right-aligned: the byte it goes to holds `nbits % 8 < 8` bits, so the
shift drops none, and the bounds of the other bytes only grow (R172). -/
theorem frameInv_assembleBit (hs : FrameInv s) (hbusy : s.phase ≠ .idle) (h40 : s.nbits.toNat < 40) (b : Bool) :
    FrameInv (assembleBit b s) := by
  obtain ⟨_, hbytes⟩ := hs
  have hlt : s.nbits < 40#6 := h40
  have hindex : (s.nbits >>> 3).toNat = s.nbits.toNat / 8 := by
    rw [BitVec.toNat_ushiftRight, Nat.shiftRight_eq_div_pow]
  obtain ⟨i, hi⟩ : ∃ i : Fin 5, (i : Nat) = s.nbits.toNat / 8 := ⟨⟨_, by omega⟩, rfl⟩
  refine ⟨add_one_le_of_lt hlt, fun _ j => ?_⟩
  have hj := hbytes hbusy j
  simp only [assembleBit, hindex, toNat_add_one_of_lt hlt, ← hi, byte_shiftIn]
  by_cases hji : j = i
  · have hbits : s.nbits.toNat + 1 - 8 * j = s.nbits.toNat - 8 * j + 1 := by omega
    rw [if_pos hji, hbits]
    exact shiftInto_toNat_lt b hj
  · rw [if_neg hji]
    exact lt_of_lt_of_le hj (Nat.pow_le_pow_right (by decide) (by omega))

theorem frameInv_transition (h : SequencerTo tick sample s u) (hs : FrameInv s) : FrameInv u := by
  cases h
  case captureBit p hwin _ _ helig =>
    obtain ⟨_, _, h40⟩ := (eligible_iff _ _).mp helig
    exact frameInv_assembleBit hs (by simp [p]) h40 _
  all_goals
    obtain ⟨hn, hbytes⟩ := hs
    simp_all [FrameInv, exitStartLow, commit]

theorem frameInv_accept (s : State) (m : Mode) : FrameInv (acceptCommand m s) := by
  rcases acceptCommand_cases m s with ⟨_, _, e⟩ | ⟨_, e⟩ <;> rw [e] <;> simp [FrameInv, exhaustAtOnce]

/-! ## The attempts (R39, R211, R212) -/

theorem attemptsInv_reset (ins : List Pins) (c : Nat) (r : Word) : AttemptsInv (resetWith ins c r) :=
  (by decide : AttemptsInv State.reset)

theorem attemptsInv_transition (h : SequencerTo tick sample s u) (hs : AttemptsInv s) : AttemptsInv u := by
  cases h
  case settleNext p _ hlt =>
    obtain ⟨hdecode, hacquire⟩ := hs (by simp [p])
    refine fun _ => ⟨fun hm => absurd p (hdecode hm).2, fun hm => ?_⟩
    obtain ⟨h1, _⟩ := hacquire hm
    simp only [beginAttempt_attempts, beginAttempt_retryBound]
    exact ⟨by bv_omega, by bv_omega⟩
  all_goals simp_all [AttemptsInv, exitStartLow, commit, assembleBit]

theorem attemptsInv_accept (s : State) (m : Mode) : AttemptsInv (acceptCommand m s) := by
  rcases acceptCommand_cases m s with ⟨_, _, e⟩ | ⟨hm, e⟩ <;> rw [e]
  · simp [AttemptsInv, exhaustAtOnce]
  · cases m
    · simp [AttemptsInv]
    · have hbound : s.retryBound ≠ 0#8 := by simpa using hm
      have h1 : 1#8 ≤ s.retryBound := by bv_omega
      simpa [AttemptsInv] using h1

/-! ## The outcome (R33, R110, R195, R197) -/

theorem outcomeInv_reset (ins : List Pins) (c : Nat) (r : Word) : OutcomeInv (resetWith ins c r) :=
  (by decide : OutcomeInv State.reset)

theorem outcomeInv_transition (h : SequencerTo tick sample s u) (hs : OutcomeInv s) : OutcomeInv u := by
  obtain ⟨hbusy, hfail, hok⟩ := hs
  cases h
  case commit p h40 hsum => exact ⟨by simp [commit], by simp [commit], fun _ => ⟨rfl, h40, hsum, rfl, rfl⟩⟩
  all_goals simp_all [OutcomeInv, exitStartLow, assembleBit]

theorem outcomeInv_accept (s : State) (m : Mode) : OutcomeInv (acceptCommand m s) := by
  rcases acceptCommand_cases m s with ⟨_, _, e⟩ | ⟨_, e⟩ <;> rw [e] <;> simp [OutcomeInv, exhaustAtOnce]

/-! ## The error code (R34, R231) -/

theorem errInv_reset (ins : List Pins) (c : Nat) (r : Word) : ErrInv (resetWith ins c r) :=
  (by decide : ErrInv State.reset)

theorem errInv_transition (h : SequencerTo tick sample s u) (hattempts : AttemptsInv s) (hs : ErrInv s) :
    ErrInv u := by
  obtain ⟨hbusy, hincomplete, hmismatch, hexhausted⟩ := hs
  cases h
  case decodeFails kind p hm hkind =>
    rcases hkind with ⟨rfl, hn⟩ | ⟨rfl, hn, _⟩ <;> simp [ErrInv, FailKind.err, hm, hn]
  case settleEnd p _ _ =>
    have hm : s.mode = .acquire := by
      cases hm : s.mode
      · exact absurd p ((hattempts (by simp [p])).1 hm).2
      · rfl
    simp [ErrInv, hm]
  all_goals simp_all [ErrInv, exitStartLow, commit, assembleBit]

theorem errInv_accept (s : State) (m : Mode) : ErrInv (acceptCommand m s) := by
  rcases acceptCommand_cases m s with ⟨hm, _, e⟩ | ⟨_, e⟩ <;> rw [e] <;> simp [ErrInv, exhaustAtOnce]
  exact hm

end

/-- The reset state meets every invariant, whatever the model's own fields hold (R53, R261). -/
theorem blockInv_reset (ins : List Pins) (c : Nat) (r : Word) : BlockInv (resetWith ins c r) :=
  ⟨lineInv_reset ins c r, timerInv_reset ins c r, windowInv_reset ins c r, bitCountInv_reset ins c r,
    frameInv_reset ins c r, freshInv_reset ins c r, attemptsInv_reset ins c r, outcomeInv_reset ins c r,
    errInv_reset ins c r⟩

/-! ## Every step -/

section
variable {s t : State}

theorem lineInv_step (hs : LineInv s) (h : step s = .next t) : LineInv t :=
  step_keeps LineInv lineInv_reset
    (fun s tick sample hs => lineInv_transition (sequencerTo tick sample s) hs)
    (fun _ _ _ _ _ _ _ _ _ _ hs => hs)
    (fun _ _ _ _ _ _ _ _ hs => hs)
    lineInv_accept hs h

theorem timerInv_step (hs : TimerInv s) (h : step s = .next t) : TimerInv t :=
  step_keeps TimerInv timerInv_reset
    (fun s tick sample hs => timerInv_transition (sequencerTo tick sample s) hs)
    (fun _ _ _ _ _ _ _ _ _ _ hs => hs)
    (fun s a b c d e f hidle _ => by simp [TimerInv, hidle])
    (fun s m _ _ => timerInv_accept s m) hs h

theorem windowInv_step (hs : WindowInv s) (h : step s = .next t) : WindowInv t :=
  step_keeps WindowInv windowInv_reset
    (fun s tick sample hs => windowInv_transition (sequencerTo tick sample s) hs)
    (fun _ _ _ _ _ _ _ _ _ _ hs => hs)
    (fun _ _ _ _ _ _ _ _ hs => hs)
    (fun s m _ _ => windowInv_accept s m) hs h

/-- The bit count needs the fresh attempt: capture starts with no bit. -/
theorem freshInv_bitCountInv_step (hs : FreshInv s ∧ BitCountInv s) (h : step s = .next t) :
    FreshInv t ∧ BitCountInv t :=
  step_keeps (fun s => FreshInv s ∧ BitCountInv s)
    (fun ins c r => ⟨freshInv_reset ins c r, bitCountInv_reset ins c r⟩)
    (fun s tick sample hs => ⟨freshInv_transition (sequencerTo tick sample s) hs.1,
      bitCountInv_transition (sequencerTo tick sample s) hs.1 hs.2⟩)
    (fun _ _ _ _ _ _ _ _ _ _ hs => hs)
    (fun s a b c d e f hidle hs => ⟨hs.1, by simp [BitCountInv, hidle]⟩)
    (fun s m _ _ => ⟨freshInv_accept s m, bitCountInv_accept s m⟩) hs h

theorem frameInv_step (hs : FrameInv s) (h : step s = .next t) : FrameInv t :=
  step_keeps FrameInv frameInv_reset
    (fun s tick sample hs => frameInv_transition (sequencerTo tick sample s) hs)
    (fun _ _ _ _ _ _ _ _ _ _ hs => hs)
    (fun _ _ _ _ _ _ _ _ hs => hs)
    (fun s m _ _ => frameInv_accept s m) hs h

theorem attemptsInv_step (hs : AttemptsInv s) (h : step s = .next t) : AttemptsInv t :=
  step_keeps AttemptsInv attemptsInv_reset
    (fun s tick sample hs => attemptsInv_transition (sequencerTo tick sample s) hs)
    (fun _ _ _ _ _ _ _ _ _ _ hs => hs)
    (fun _ _ _ _ _ _ _ hidle _ hbusy => absurd hidle hbusy)
    (fun s m _ _ => attemptsInv_accept s m) hs h

/-- The host can lower DONE, which no clause of the invariant needs to be 1 (R103). -/
theorem outcomeInv_host {d : Bool} (hd : d = s.done ∨ d = false) (hs : OutcomeInv s) :
    OutcomeInv { s with done := d } := by
  obtain ⟨hbusy, hfail, hok⟩ := hs
  refine ⟨fun p => ?_, hfail, hok⟩
  obtain ⟨hdone, hoks, herr⟩ := hbusy p
  exact ⟨hd.elim (·.trans hdone) id, hoks, herr⟩

theorem outcomeInv_step (hs : OutcomeInv s) (h : step s = .next t) : OutcomeInv t :=
  step_keeps OutcomeInv outcomeInv_reset
    (fun s tick sample hs => outcomeInv_transition (sequencerTo tick sample s) hs)
    (fun _ _ _ _ _ _ _ _ _ hd hs => outcomeInv_host hd hs)
    (fun _ _ _ _ _ _ _ _ hs => hs)
    (fun s m _ _ => outcomeInv_accept s m) hs h

/-- The error code needs the attempts: a DECODE never settles, so only an ACQUIRE ends EXHAUSTED. -/
theorem attemptsInv_errInv_step (hs : AttemptsInv s ∧ ErrInv s) (h : step s = .next t) :
    AttemptsInv t ∧ ErrInv t :=
  step_keeps (fun s => AttemptsInv s ∧ ErrInv s)
    (fun ins c r => ⟨attemptsInv_reset ins c r, errInv_reset ins c r⟩)
    (fun s tick sample hs => ⟨attemptsInv_transition (sequencerTo tick sample s) hs.1,
      errInv_transition (sequencerTo tick sample s) hs.1 hs.2⟩)
    (fun _ _ _ _ _ _ _ _ _ _ hs => hs)
    (fun _ _ _ _ _ _ _ hidle hs => ⟨fun hbusy => absurd hidle hbusy, hs.2⟩)
    (fun s m _ _ => ⟨attemptsInv_accept s m, errInv_accept s m⟩) hs h

theorem blockInv_step (hs : BlockInv s) (h : step s = .next t) : BlockInv t := by
  obtain ⟨hline, htimer, hwindow, hbits, hframe, hfresh, hattempts, houtcome, herr⟩ := hs
  obtain ⟨hfresh', hbits'⟩ := freshInv_bitCountInv_step ⟨hfresh, hbits⟩ h
  obtain ⟨hattempts', herr'⟩ := attemptsInv_errInv_step ⟨hattempts, herr⟩ h
  exact ⟨lineInv_step hline h, timerInv_step htimer h, windowInv_step hwindow h, hbits', frameInv_step hframe h,
    hfresh', hattempts', outcomeInv_step houtcome h, herr'⟩

end

/-- Settles O52: the phase and the line change together in START_LOW's exit, EnterCapture and BeginAttempt. -/
theorem lineDriveFollowsThePhase : Obligations.LineDriveFollowsThePhase := fun _ _ => lineInv_step

/-- Settles O53: a shift doubles a byte that has room for the bit, and the count stops at 40. -/
theorem frameStaysRightAligned : Obligations.FrameStaysRightAligned := fun _ _ => frameInv_step

/-- Settles O54: only SETTLE starts another attempt, below RETRY_BOUND, and only ACQUIRE settles. -/
theorem attemptsStayBounded : Obligations.AttemptsStayBounded := fun _ _ => attemptsInv_step

/-- Settles O55: acceptance clears the outcome, and only a commit after both checks writes a Reading. -/
theorem resultsAreZeroOrValid : Obligations.ResultsAreZeroOrValid := fun _ _ => outcomeInv_step

/-- Settles O56, from the step lemmas of the nine invariants. -/
theorem everyStepKeepsTheInvariants : Obligations.EveryStepKeepsTheInvariants := fun _ _ => blockInv_step

/-- Settles O51: the reset state with the model's own fields at 0. -/
theorem resetMeetsTheInvariants : Obligations.ResetMeetsTheInvariants := blockInv_reset [] 0 0#32

end Sys2Proof.Machine
end

