-- ==== Sys2Proof/Proofs/HiddenFrame.lean ====
section
/-! The frame buffer is hidden (R51, R197): every part of a cycle, run on two states that differ only in the frame buffer,
gives two states that differ only in it. The one part that reads the buffer is VALIDATE's checksum, and it shows no
difference while neither frame passes. -/

namespace Sys2Proof.Machine

/-- What `op` leaves outside the frame buffer does not depend on the frame buffer. -/
def HidesFrame (op : State → State) : Prop :=
  ∀ (s : State) (f : Frame), ∃ g, op { s with fb := f } = { op s with fb := g }

/-- A window limit, a cap or a bit is decided without the frame buffer. -/
theorem hidesFrame_ite {c : State → Prop} [DecidablePred c] {op₁ op₂ : State → State}
    (hc : ∀ s f, c { s with fb := f } ↔ c s) (h₁ : HidesFrame op₁) (h₂ : HidesFrame op₂) :
    HidesFrame fun s => if c s then op₁ s else op₂ s := by
  intro s f
  simp only [hc]
  by_cases h : c s
  · simpa only [h, if_true] using h₁ s f
  · simpa only [h, if_false] using h₂ s f

theorem hidesFrame_exitSettle : HidesFrame exitSettle :=
  hidesFrame_ite (fun _ _ => Iff.rfl) (fun _ _ => ⟨.zero, rfl⟩) (fun _ f => ⟨f, rfl⟩)

theorem hidesFrame_acceptCommand (m : Mode) : HidesFrame (acceptCommand m) :=
  hidesFrame_ite (fun _ _ => Iff.rfl) (fun _ f => ⟨f, rfl⟩) (fun _ _ => ⟨.zero, rfl⟩)

theorem hidesFrame_exitStartLow : HidesFrame exitStartLow := fun _ f => ⟨f, rfl⟩

theorem hidesFrame_enterCapture : HidesFrame enterCapture := fun _ f => ⟨f, rfl⟩

/-- A timed phase whose length and exit do not depend on the frame buffer. -/
theorem hidesFrame_timedCycle (n : State → BitVec 24) {exit : State → State} (tick : Bool)
    (hn : ∀ s f, n { s with fb := f } = n s) (hexit : HidesFrame exit) :
    HidesFrame fun s => timedCycle (n s) exit tick s :=
  hidesFrame_ite (fun s f => by rw [hn]) (fun s f => hexit { s with timer := 0#24 } f)
    (hidesFrame_ite (fun _ _ => Iff.rfl) (fun _ f => ⟨f, rfl⟩) (fun _ f => ⟨f, rfl⟩))

theorem hidesFrame_captureCycle (tick sample : Bool) : HidesFrame (captureCycle tick sample) := by
  have hsame : HidesFrame sameLevel :=
    hidesFrame_ite (fun _ _ => Iff.rfl) (fun _ f => ⟨f, rfl⟩) (fun _ f => ⟨f, rfl⟩)
  have hchange : HidesFrame (levelChange sample) := by
    intro s f
    unfold levelChange classify
    by_cases h : eligible s.win s.nbits = true
    · simp only [h, if_true]
      exact ⟨_, rfl⟩
    · simp only [h]
      exact ⟨f, rfl⟩
  exact hidesFrame_ite (fun _ _ => Iff.rfl) (fun _ f => ⟨f, rfl⟩)
    (hidesFrame_ite (fun _ _ => Iff.rfl) (hidesFrame_ite (fun _ _ => Iff.rfl) hsame hchange) (fun _ f => ⟨f, rfl⟩))

/-- One of the two frames would be committed: the phase is VALIDATE with 40 bits, and its checksum holds (R190 to R192). -/
abbrev FrameShows (s : State) (f : Frame) : Prop :=
  s.phase = .validate ∧ 40#6 ≤ s.nbits ∧ (s.fb.b4 = checksum s.fb ∨ f.b4 = checksum f)

/-- VALIDATE of two frames that both fail (R196). -/
theorem validateCycle_hides {s : State} {f : Frame} (hp : s.phase = .validate) (h : ¬ FrameShows s f) :
    ∃ g, validateCycle { s with fb := f } = { validateCycle s with fb := g } := by
  have hfail : ∀ kind, HidesFrame (failAttempt kind) := by
    intro kind s f
    rcases failAttempt_cases kind s with ⟨hm, e⟩ | ⟨hm, e⟩ <;> rw [e]
    · exact ⟨f, failAttempt_decode kind { s with fb := f } hm⟩
    · exact ⟨f, failAttempt_acquire kind { s with fb := f } hm⟩
  unfold validateCycle
  by_cases hn : s.nbits < Config.frameBits
  · simpa only [hn, if_true] using hfail .incomplete s f
  · have hbad : s.fb.b4 ≠ checksum s.fb ∧ f.b4 ≠ checksum f :=
      not_or.mp fun hc => h ⟨hp, BitVec.not_lt.mp hn, hc⟩
    obtain ⟨hs, hf⟩ := hbad
    simp only [hn, if_false, if_pos hs, if_pos hf]
    exact hfail .checksumMismatch s f

theorem sequencer_hides (tick sample : Bool) {s : State} {f : Frame} (h : ¬ FrameShows s f) :
    ∃ g, sequencer tick sample { s with fb := f } = { sequencer tick sample s with fb := g } := by
  rcases sequencer_cases tick sample s with ⟨p, e⟩ | ⟨p, e⟩ | ⟨p, e⟩ | ⟨p, e⟩ | ⟨p, e⟩ | ⟨p, e⟩ <;> rw [e]
  · exact ⟨f, sequencer_idle tick sample { s with fb := f } p⟩
  · rw [sequencer_startLow tick sample { s with fb := f } p]
    exact hidesFrame_timedCycle State.tStartLow tick (fun _ _ => rfl) hidesFrame_exitStartLow s f
  · rw [sequencer_startHigh tick sample { s with fb := f } p]
    exact hidesFrame_timedCycle (fun s => s.tStartHigh.setWidth 24) tick (fun _ _ => rfl)
      hidesFrame_enterCapture s f
  · rw [sequencer_capture tick sample { s with fb := f } p]
    exact hidesFrame_captureCycle tick sample s f
  · rw [sequencer_validate tick sample { s with fb := f } p]
    exact validateCycle_hides p h
  · rw [sequencer_settle tick sample { s with fb := f } p]
    exact hidesFrame_timedCycle State.tSettle tick (fun _ _ => rfl) hidesFrame_exitSettle s f

theorem edge_hides {s : State} {f : Frame} (h : ¬ FrameShows s f) :
    ∃ g, edge { s with fb := f } = { edge s with fb := g } := by
  obtain ⟨g, hg⟩ := sequencer_hides s.pins.tickI s.sync2 h
  exact ⟨g, congrArg clocked hg⟩

theorem setsDone_hides {s : State} {f : Frame} (h : ¬ FrameShows s f) :
    setsDone { s with fb := f } = setsDone s := by
  have hcleared : ¬ FrameShows { s with done := false } f := h
  obtain ⟨g, hg⟩ := sequencer_hides s.pins.tickI s.sync2 hcleared
  unfold setsDone
  exact (congrArg State.done hg :)

/-- No register shows the frame buffer (R26 to R48). -/
theorem busRead_hides (s : State) (f : Frame) (addr : Offset) : busRead { s with fb := f } addr = busRead s addr := rfl

theorem busRdata_hides (s : State) (f : Frame) : busRdata { s with fb := f } = busRdata s := by
  have hp : State.pins { s with fb := f } = s.pins := rfl
  rw [busRdata, busRdata, hp]
  cases s.pins.rstN
  · rfl
  · rw [if_pos rfl, if_pos rfl, busRead_hides]

theorem writeLocked_hides {store : State → State} {s t : State} {f : Frame} (hf : ¬ FrameShows s f)
    (h : writeLocked store s = .next t) (hstore : HidesFrame store) :
    ∃ g, writeLocked store { s with fb := f } = .next { t with fb := g } := by
  obtain ⟨g, hg⟩ := edge_hides hf
  unfold writeLocked at h ⊢
  injection h with h
  rw [← h, hg]
  rw [show busy { s with fb := f } = busy s from rfl]
  cases hb : busy s
  · obtain ⟨g', hg'⟩ := hstore (edge s) g
    exact ⟨g', congrArg _ hg'⟩
  · exact ⟨g, rfl⟩

theorem startCommand_hides {m : Mode} {s t : State} {f : Frame} (hf : ¬ FrameShows s f)
    (h : startCommand m s = .next t) : ∃ g, startCommand m { s with fb := f } = .next { t with fb := g } :=
  writeLocked_hides hf h (hidesFrame_acceptCommand m)

/-- The cycle of an operation: besides its edge and the flag it may set, it reads only registers and DONE's setting, which
do not depend on the frame buffer. -/
theorem exec_hides {i : Instr} {s t : State} {f : Frame} (hf : ¬ FrameShows s f) (h : exec i s = .next t) :
    ∃ g, exec i { s with fb := f } = .next { t with fb := g } := by
  obtain ⟨g, hg⟩ := edge_hides hf
  cases i
  case wrParamTStartLow | wrParamTStartHigh | wrParamMaxWindows | wrParamBitThreshold | wrParamRetryBound |
      wrParamTSettle =>
    simp only [exec_wrParamTStartLow, exec_wrParamTStartHigh, exec_wrParamMaxWindows, exec_wrParamBitThreshold,
      exec_wrParamRetryBound, exec_wrParamTSettle] at h ⊢
    exact writeLocked_hides hf h fun _ f => ⟨f, rfl⟩
  case cmdAcquire | cmdDecode => exact startCommand_hides hf h
  all_goals
    injection h with h
    simp only [exec_rd, exec_wrCtrl, exec_wrStatus, exec_wrIgnoredId, exec_wrIgnoredRawLo, exec_wrIgnoredRawHi,
      exec_wrIgnoredReading, exec_wrIgnoredReserved34, exec_wrIgnoredReserved38To3C, exec_wrIgnoredReserved40To7C,
      exec_wrIgnoredReserved80ToFC, exec_cmdNop, exec_cmdReserved3, exec_cmdReserved4To7, exec_cmdReserved8ToF,
      busRead_hides, setsDone_hides hf, hg, ← h]
    exact ⟨g, rfl⟩

theorem step_hides {s t : State} {f : Frame} (hf : ¬ FrameShows s f) (h : step s = .next t) :
    ∃ g, step { s with fb := f } = .next { t with fb := g } := by
  rcases step_cases h with ⟨hr, e⟩ | ⟨hr, hb, e⟩ | ⟨hr, hb, e⟩
  · refine ⟨.zero, (step_of_reset { s with fb := f } hr).trans (congrArg Host.Outcome.next ?_)⟩
    rw [e, resetEdge, resetEdge, busRdata_hides]
    rfl
  · obtain ⟨g, hg⟩ := edge_hides hf
    refine ⟨g, (step_of_quiet { s with fb := f } hr hb).trans (congrArg Host.Outcome.next ?_)⟩
    rw [e, hg]
  · obtain ⟨g, hg⟩ := exec_hides hf e
    exact ⟨g, (step_of_transaction { s with fb := f } hr hb).trans hg⟩

/-- Settles O58: the only rule that reads the frame buffer is VALIDATE's, and it shows nothing of a frame that fails. -/
theorem rejectedFrameStaysHidden : Obligations.RejectedFrameStaysHidden := by
  intro a f a' b' hhidden ha hb
  obtain ⟨g, hg⟩ := step_hides hhidden ha
  have hb' : b' = { a' with fb := g } := Host.Outcome.next.inj (hb.symm.trans hg)
  exact ⟨by rw [hb'], (busRdata_hides a f).symm⟩

end Sys2Proof.Machine
end

