-- ==== Sys2Proof/Proofs/StatusFlags.lean ====
section
/-! The STATUS word field by field (R30), and what an operation's cycle does to REJ and to DONE (R32, R35). -/

namespace Sys2Proof.Machine

/-! ## The STATUS word -/

/-- The STATUS word at the width its fields add up to, which is that of a register. -/
def statusLayout (s : State) : BitVec (8 + 2 + 6 + 5 + 3 + 1 + 1 + 1 + 2 + 1 + 1 + 1) :=
  s.attempts ++ 0b00#2 ++ s.nbits ++ 0b00000#5 ++ s.phase.code ++ 0b0#1 ++
    BitVec.ofBool s.capHit ++ BitVec.ofBool s.rej ++ s.err.code ++ BitVec.ofBool s.ok ++
    BitVec.ofBool s.done ++ BitVec.ofBool (busy s)

theorem statusWord_eq_statusLayout (s : State) : statusWord s = statusLayout s := rfl

/-- The 1-bit fields (R31 to R33, R35, R36). -/
theorem statusLayout_bits (s : State) :
    (statusLayout s).getLsbD 0 = busy s ∧ (statusLayout s).getLsbD 1 = s.done ∧
    (statusLayout s).getLsbD 2 = s.ok ∧ (statusLayout s).getLsbD 5 = s.rej ∧
    (statusLayout s).getLsbD 6 = s.capHit ∧ (statusLayout s).getLsbD 7 = false := by
  refine ⟨?_, ?_, ?_, ?_, ?_, ?_⟩ <;> simp only [statusLayout, BitVec.getLsbD_append] <;> simp

/-- The wider fields (R34, R37 to R39) and the reserved bits between them. -/
theorem statusLayout_parts (s : State) :
    (statusLayout s).extractLsb' 3 2 = s.err.code ∧ (statusLayout s).extractLsb' 8 3 = s.phase.code ∧
    (statusLayout s).extractLsb' 11 5 = 0#5 ∧ (statusLayout s).extractLsb' 16 6 = s.nbits ∧
    (statusLayout s).extractLsb' 22 2 = 0#2 ∧ (statusLayout s).extractLsb' 24 8 = s.attempts := by
  refine ⟨?_, ?_, ?_, ?_, ?_, ?_⟩ <;>
    simp (disch := decide) only [statusLayout, BitVec.extractLsb'_append_eq_of_le,
      BitVec.extractLsb'_append_eq_of_add_le, Nat.reduceSub, BitVec.extractLsb'_eq_self]

theorem busy_eq_decide (s : State) : busy s = decide (s.phase ≠ .idle) := by
  unfold busy
  cases s.phase <;> rfl

/-- Settles O14: each field of the STATUS word stands where the concatenation puts it. -/
theorem statusFields : Obligations.StatusFields := by
  intro s
  obtain ⟨hbusy, hdone, hok, hrej, hcap, h7⟩ := statusLayout_bits s
  obtain ⟨herr, hphase, h11, hnbits, h22, hattempts⟩ := statusLayout_parts s
  rw [show Reg.read s .status = statusLayout s from statusWord_eq_statusLayout s]
  refine ⟨hbusy.trans (busy_eq_decide s), hdone, hok, ?_, hrej, hcap, h7, ?_, h11, hnbits, h22, hattempts⟩
  · refine (congrArg BitVec.toNat herr).trans ?_
    cases s.err <;> rfl
  · refine (congrArg BitVec.toNat hphase).trans ?_
    cases s.phase <;> rfl

/-! ## REJ -/

/-- Acceptance leaves REJ alone (R110). -/
@[simp] theorem acceptCommand_rej (m : Mode) (s : State) : (acceptCommand m s).rej = s.rej := by
  rcases acceptCommand_cases m s with ⟨_, _, e⟩ | ⟨_, e⟩ <;> rw [e] <;> simp [exhaustAtOnce]

/-- A locked write is rejected exactly while busy (R104). -/
theorem writeLocked_rej {store : State → State} {s t : State} (h : writeLocked store s = .next t)
    (hstore : ∀ u, (store u).rej = u.rej) : t.rej = true ↔ s.phase ≠ .idle ∨ s.rej = true := by
  rcases writeLocked_cases h with ⟨hbusy, e⟩ | ⟨hidle, e⟩ <;> rw [e]
  · simp [hbusy]
  · simp [hidle, hstore]

/-- A start command is rejected exactly while busy (R107, R108). -/
theorem startCommand_rej {m : Mode} {s t : State} (h : startCommand m s = .next t) :
    t.rej = true ↔ s.phase ≠ .idle ∨ s.rej = true :=
  writeLocked_rej h (acceptCommand_rej m)

/-- Settles O27: the locked writes and the start commands by their lemmas, the others from the edge, which leaves REJ. -/
theorem rejFollowsTheRejections : Obligations.RejFollowsTheRejections := by
  refine ⟨fun s t h => ⟨fun hr => ?_, fun hr hb => ?_⟩, fun i s t h => ?_⟩
  · rw [step_of_reset s hr] at h
    rw [← Host.Outcome.next.inj h]
    rfl
  · rw [step_of_quiet s hr hb] at h
    rw [← Host.Outcome.next.inj h, edge_rej]
  · cases i
    case wrParamTStartLow | wrParamTStartHigh | wrParamMaxWindows | wrParamBitThreshold | wrParamRetryBound |
        wrParamTSettle =>
      simp only [exec_wrParamTStartLow, exec_wrParamTStartHigh, exec_wrParamMaxWindows, exec_wrParamBitThreshold,
        exec_wrParamRetryBound, exec_wrParamTSettle] at h
      simpa using writeLocked_rej h fun _ => rfl
    case cmdAcquire | cmdDecode => simpa using startCommand_rej h
    case wrStatus addr wdata =>
      rw [← Host.Outcome.next.inj h]
      simp [clearFlags, edge_rej]
    case cmdReserved3 | cmdReserved4To7 | cmdReserved8ToF =>
      rw [← Host.Outcome.next.inj h]
      simp
    all_goals
      rw [← Host.Outcome.next.inj h]
      simp [edge_rej]

/-! ## DONE -/

/-- The sequencer never lowers DONE (log 17). -/
theorem edge_done_of_done {s : State} (hdone : s.done = true) : (edge s).done = true := by
  simp [edge_done, hdone]

/-- A locked write leaves DONE set, stored or rejected (R35, R104). -/
theorem writeLocked_done {store : State → State} {s t : State} (h : writeLocked store s = .next t)
    (hstore : ∀ u, (store u).done = u.done) (hdone : s.done = true) : t.done = true := by
  rcases writeLocked_cases h with ⟨_, e⟩ | ⟨_, e⟩ <;> rw [e]
  · exact edge_done_of_done hdone
  · rw [hstore, clocked_done, hdone]

/-- A start command that lowers DONE has been accepted (R110). -/
theorem startCommand_done {m : Mode} {s t : State} (h : startCommand m s = .next t) (hdone : s.done = true)
    (hlow : t.done = false) : s.phase = .idle := by
  rcases startCommand_cases h with ⟨_, e⟩ | ⟨hidle, _⟩
  · simp [e, edge_done_of_done hdone] at hlow
  · exact hidle

/-- Settles O30: a STATUS write and an acceptance can lower DONE; every other cycle leaves it as the edge does. -/
theorem doneIsSticky : Obligations.DoneIsSticky := by
  intro i s t h hdone hlow
  have hedge := edge_done_of_done hdone
  cases i
  case wrParamTStartLow | wrParamTStartHigh | wrParamMaxWindows | wrParamBitThreshold | wrParamRetryBound |
      wrParamTSettle =>
    simp only [exec_wrParamTStartLow, exec_wrParamTStartHigh, exec_wrParamMaxWindows, exec_wrParamBitThreshold,
      exec_wrParamRetryBound, exec_wrParamTSettle] at h
    simp [writeLocked_done h (fun _ => rfl) hdone] at hlow
  case cmdAcquire addr ignored => exact .inr ⟨startCommand_done h hdone hlow, addr, ignored, .inl rfl⟩
  case cmdDecode addr ignored => exact .inr ⟨startCommand_done h hdone hlow, addr, ignored, .inr rfl⟩
  case wrStatus addr wdata =>
    rw [← Host.Outcome.next.inj h] at hlow
    refine .inl ⟨addr, wdata, rfl, ?_⟩
    cases hbit : wdata.getLsbD 1
    · simp only [clearFlags, hedge, hbit, Bool.false_and, Bool.not_false, Bool.and_self, Bool.true_eq_false] at hlow
    · rfl
  all_goals
    rw [← Host.Outcome.next.inj h] at hlow
    simp [hedge] at hlow

end Sys2Proof.Machine
end

