-- ==== Sys2Proof/Proofs/EdgesAndResets.lean ====
section
/-! The synchronizer (R22), the reset edge (R53, R260), and the window limit below 83 (R156 e). -/

namespace Sys2Proof.Machine

/-- Settles O24: in IDLE the sequencer writes nothing, so that the edge is the clock's. -/
theorem idleCycleOnlyShiftsTheSynchronizer : Obligations.IdleCycleOnlyShiftsTheSynchronizer :=
  fun _ hidle => edge_of_idle hidle

/-- The sequencer leaves the input pins and the synchronizer alone, so that the edge shifts what was there before it. -/
theorem edge_sync (s : State) : (edge s).sync1 = s.pins.dqI ∧ (edge s).sync2 = s.sync1 := by
  have hframe := sequencer_frame s.pins.tickI s.sync2 s
  simp only [edge, clocked_sync1, clocked_sync2]
  rw [hframe]
  exact ⟨rfl, rfl⟩

/-- Whatever the host presents, its cycle shifts the synchronizer. -/
theorem cycleKind_sync {s t : State} (h : CycleKind s t) : t.sync1 = s.pins.dqI ∧ t.sync2 = s.sync1 := by
  rcases h with ⟨e, _⟩ | ⟨_, e⟩ | ⟨_, m, e⟩ <;> rw [e]
  · exact edge_sync s
  · exact ⟨rfl, rfl⟩
  · rcases acceptCommand_cases m (clocked s) with ⟨_, _, e⟩ | ⟨_, e⟩ <;> rw [e] <;> exact ⟨rfl, rfl⟩

theorem step_sync {s t : State} (hr : s.pins.rstN = true) (h : step s = .next t) :
    t.sync1 = s.pins.dqI ∧ t.sync2 = s.sync1 := cycleKind_sync (cycleKind_of_step hr h)

/-- Settles O41: two shifts in a row. -/
theorem sampleLagsTwoCycles : Obligations.SampleLagsTwoCycles :=
  ⟨fun _ _ => step_sync, fun _ _ _ hs ht hst htu => (step_sync ht htu).2.trans (step_sync hs hst).1⟩

/-- Settles O49, by computing each element of the one state. -/
theorem resetValues : Obligations.ResetValues := by
  unfold Obligations.ResetValues
  decide

/-- Settles O50: the reset edge is built from the reset state, and reads from it. -/
theorem resetWinsOverEverything : Obligations.ResetWinsOverEverything := by
  intro s hr
  refine ⟨resetEdge s, step_of_reset s hr, rfl, ?_⟩
  change busRdata s = _
  unfold busRdata
  cases hs : s.pins.busSel <;> cases hw : s.pins.busWe <;> simp [hr]

/-- In VALIDATE 40 bits mean that window 82 has ended, so that the limit is at least 83 (R156 e). -/
theorem maxWindows_of_forty_bits {s : State} (hs : BitCountInv s) (p : s.phase = .validate) (h40 : 40#6 ≤ s.nbits) :
    83 ≤ s.maxWindows.toNat := by
  obtain ⟨hwin, hcount⟩ := hs (.inr p)
  have hwin : s.win.toNat ≤ s.maxWindows.toNat := hwin
  have h40 : 40 ≤ s.nbits.toNat := h40
  omega

/-- OK rises at a commit alone (R33, R195). -/
theorem edge_ok {s : State} (h : (edge s).ok = true) : s.ok = true ∨ (s.phase = .validate ∧ 40#6 ≤ s.nbits) := by
  have hseq := sequencerTo s.pins.tickI s.sync2 s
  rw [edge, clocked_ok] at h
  generalize sequencer s.pins.tickI s.sync2 s = u at hseq h
  cases hseq
  case commit p h40 _ => exact .inr ⟨p, h40⟩
  all_goals exact .inl h

/-- Settles O57: a busy state shows no OK, and a commit needs 40 bits, which 82 windows do not give. -/
theorem tooFewWindowsNeverSucceed : Obligations.TooFewWindowsNeverSucceed := by
  intro s t hs hfew hbusy h
  obtain ⟨_, _, _, hbits, _, _, _, ⟨hrunning, _⟩, _⟩ := hs
  obtain ⟨_, hok, _⟩ := hrunning hbusy
  have hfew : s.maxWindows.toNat < 83 := hfew
  have hedge : (edge s).ok = false := by
    rw [← Bool.not_eq_true]
    intro he
    rcases edge_ok he with h1 | ⟨p, h40⟩
    · simp [hok] at h1
    · have := maxWindows_of_forty_bits hbits p h40
      omega
  cases hr : s.pins.rstN
  · rw [step_of_reset s hr] at h
    rw [← Host.Outcome.next.inj h]
    rfl
  · rcases cycleKind_of_step hr h with ⟨e, _⟩ | ⟨hidle, _⟩ | ⟨hidle, _⟩
    · rw [e]
      exact hedge
    · exact absurd hidle hbusy
    · exact absurd hidle hbusy

end Sys2Proof.Machine
end

