-- ==== Sys2Proof/Proofs/Cycles.lean ====
section
/-! What any operation's cycle leaves of the sequencer's edge, what the edge leaves of the configuration, and at which edges
a command completes. -/

namespace Sys2Proof.Machine

/-! ## The cycle of an operation -/

/-- No operation faults and none is refused (R101, R230). -/
theorem exec_next (i : Instr) (s : State) : ∃ t, exec i s = .next t := by
  cases i <;> exact ⟨_, rfl⟩

theorem step_next {s : State} (hr : s.pins.rstN = true) : ∃ t, step s = .next t := by
  cases hb : s.pins.busSel
  · exact ⟨_, step_of_quiet s hr hb⟩
  · rw [step_of_transaction s hr hb]
    exact exec_next _ s

/-- While a command runs the host can neither store a parameter nor start a command (R74). -/
theorem cycleKind_busy {s t : State} (hbusy : s.phase ≠ .idle) (h : CycleKind s t) :
    t = { edge s with irqEn := t.irqEn, done := t.done, rej := t.rej, rdata := t.rdata } ∧
      (t.done = (edge s).done ∨ (t.done = false ∧ setsDone s = false)) := by
  rcases h with h | ⟨hidle, _⟩ | ⟨hidle, _⟩
  · exact h
  · exact absurd hidle hbusy
  · exact absurd hidle hbusy

/-- An operation writes the flags, the value read and the parameters over the sequencer's edge, or it is a start command
accepted in IDLE. -/
theorem exec_edge_or_accept {i : Instr} {s t : State} (h : exec i s = .next t) :
    t = { edge s with
            irqEn := t.irqEn, done := t.done, rej := t.rej, rdata := t.rdata,
            tStartLow := t.tStartLow, tStartHigh := t.tStartHigh, maxWindows := t.maxWindows,
            bitThreshold := t.bitThreshold, retryBound := t.retryBound, tSettle := t.tSettle } ∨
    (s.phase = .idle ∧ (∃ a n, i = .cmdAcquire a n ∨ i = .cmdDecode a n) ∧
      ∃ m, t = acceptCommand m (clocked s)) := by
  have started : ∀ {m}, startCommand m s = .next t →
      t = { edge s with rej := t.rej } ∨ (s.phase = .idle ∧ ∃ m, t = acceptCommand m (clocked s)) := by
    intro m h
    rcases startCommand_cases h with ⟨_, e⟩ | ⟨hidle, e⟩
    · exact .inl (by rw [e]; rfl)
    · exact .inr ⟨hidle, m, e⟩
  cases i
  case cmdAcquire a n =>
    exact (started h).imp (fun e => by rw [e]) fun ⟨hidle, haccept⟩ => ⟨hidle, ⟨a, n, .inl rfl⟩, haccept⟩
  case cmdDecode a n =>
    exact (started h).imp (fun e => by rw [e]) fun ⟨hidle, haccept⟩ => ⟨hidle, ⟨a, n, .inr rfl⟩, haccept⟩
  case wrParamTStartLow | wrParamTStartHigh | wrParamMaxWindows | wrParamBitThreshold | wrParamRetryBound |
      wrParamTSettle =>
    simp only [exec_wrParamTStartLow, exec_wrParamTStartHigh, exec_wrParamMaxWindows, exec_wrParamBitThreshold,
      exec_wrParamRetryBound, exec_wrParamTSettle] at h
    rcases writeLocked_cases h with ⟨_, e⟩ | ⟨hidle, e⟩
    · exact .inl (by rw [e]; rfl)
    · exact .inl (by rw [e, edge_of_idle hidle])
  all_goals
    rw [← Host.Outcome.next.inj h]
    exact .inl rfl

/-! ## The configuration at an edge (R71, R74 c) -/

section
variable (s : State)

/-- What the edge keeps, and what the clock alone writes. -/
theorem edge_frame :
    edge s =
      { edge s with
          mode := s.mode, rej := s.rej, irqEn := s.irqEn, tStartLow := s.tStartLow,
          tStartHigh := s.tStartHigh, maxWindows := s.maxWindows, bitThreshold := s.bitThreshold,
          retryBound := s.retryBound, tSettle := s.tSettle, sync1 := s.pins.dqI, sync2 := s.sync1,
          inputs := s.inputs.tail, cycle := s.cycle + 1, rdata := 0#32 } :=
  congrArg clocked (sequencer_frame s.pins.tickI s.sync2 s)

@[simp] theorem edge_tStartLow : (edge s).tStartLow = s.tStartLow := by rw [edge_frame]
@[simp] theorem edge_tStartHigh : (edge s).tStartHigh = s.tStartHigh := by rw [edge_frame]
@[simp] theorem edge_maxWindows : (edge s).maxWindows = s.maxWindows := by rw [edge_frame]
@[simp] theorem edge_bitThreshold : (edge s).bitThreshold = s.bitThreshold := by rw [edge_frame]
@[simp] theorem edge_retryBound : (edge s).retryBound = s.retryBound := by rw [edge_frame]
@[simp] theorem edge_tSettle : (edge s).tSettle = s.tSettle := by rw [edge_frame]
@[simp] theorem edge_irqEn : (edge s).irqEn = s.irqEn := by rw [edge_frame]

theorem edge_sameParams : SameParams s (edge s) := by simp [SameParams]

end

/-! ## Completion (R195, R196, R212) -/

/-- The checksum is the sum of the four bytes, modulo 256 (R192). -/
theorem eq_checksum_iff (byte : Byte) (f : Frame) :
    byte = checksum f ↔ byte.toNat = (f.b0.toNat + f.b1.toNat + f.b2.toNat + f.b3.toNat) % 256 := by
  rw [← BitVec.toNat_inj, checksum, BitVec.toNat_ofNat]

/-- A transition completes the command, or leaves DONE alone and does not come to IDLE. -/
theorem transition_completes_or_not {tick sample : Bool} {s u : State} (h : SequencerTo tick sample s u) :
    (AtCompletion s ∧ u.phase = .idle ∧ u.done = true) ∨
    (¬ AtCompletion s ∧ (u.phase = .idle → s.phase = .idle) ∧ u.done = s.done) := by
  cases h
  case decodeFails p hm _ => exact .inl ⟨.inl ⟨p, .inl hm⟩, rfl, rfl⟩
  case commit p h40 hsum => exact .inl ⟨.inl ⟨p, .inr ⟨h40, (eq_checksum_iff _ _).mp hsum⟩⟩, rfl, rfl⟩
  case settleEnd p hover hlast => exact .inl ⟨.inr ⟨p, hover, hlast⟩, rfl, rfl⟩
  case attemptFails p hm hbad =>
    have hn : ¬ (40#6 ≤ s.nbits ∧
        s.fb.b4.toNat = (s.fb.b0.toNat + s.fb.b1.toNat + s.fb.b2.toNat + s.fb.b3.toNat) % 256) := by
      rw [← eq_checksum_iff]
      rintro ⟨h40, hsum⟩
      rcases hbad with hlt | ⟨_, hne⟩
      · exact BitVec.not_lt.mpr h40 hlt
      · exact hne hsum
    exact .inr ⟨by simp [AtCompletion, p, hm, hn], by simp, rfl⟩
  all_goals exact .inr (by simp_all [AtCompletion, exitStartLow, assembleBit])

/-- The sequencer sets DONE exactly at a completion (R74 b, R236). -/
theorem setsDone_iff_atCompletion (s : State) : setsDone s = true ↔ AtCompletion s := by
  unfold setsDone
  rcases transition_completes_or_not (sequencerTo s.pins.tickI s.sync2 { s with done := false }) with
    ⟨hat, _, hdone⟩ | ⟨hnot, _, hdone⟩
  · exact ⟨fun _ => hat, fun _ => hdone⟩
  · exact ⟨fun h => absurd (hdone.symm.trans h) Bool.false_ne_true, fun h => absurd h hnot⟩

/-- A running command comes to IDLE exactly at a completion. -/
theorem edge_idle_iff_atCompletion {s : State} (hbusy : s.phase ≠ .idle) :
    (edge s).phase = .idle ↔ AtCompletion s := by
  rcases transition_completes_or_not (sequencerTo s.pins.tickI s.sync2 s) with ⟨hat, hidle, _⟩ | ⟨hnot, hidle, _⟩
  · exact ⟨fun _ => hat, fun _ => hidle⟩
  · exact ⟨fun h => absurd (hidle h) hbusy, fun h => absurd h hnot⟩

end Sys2Proof.Machine
end

