-- ==== Sys2Proof/Proofs/SameCommand.lean ====
section
/-! What a command does depends on the parameters, the ticks and the samples of capture alone (R136): each part of a cycle,
run on two states at the same point of a command, takes the same branch and leads to the same point. -/

namespace Sys2Proof.Machine

section
variable {a b : State}

/-! ## The writes of the sequencer -/

theorem sameCommand_timer (h : SameCommand a b) {n n' : BitVec 24} (hn : n = n') :
    SameCommand { a with timer := n } { b with timer := n' } := by
  obtain ⟨hparams, hphase, hmode, _, hrest⟩ := h
  exact ⟨hparams, hphase, hmode, hn, hrest⟩

/-- Into a phase other than CAPTURE, whose window elements only EnterCapture makes equal (R134). -/
theorem sameCommand_phase (h : SameCommand a b) (p : Phase) (hp : p ≠ .capture) :
    SameCommand { a with phase := p } { b with phase := p } := by
  obtain ⟨hparams, _, hmode, htimer, _, hrest⟩ := h
  exact ⟨hparams, rfl, hmode, htimer, fun h => absurd h hp, hrest⟩

theorem sameCommand_window (h : SameCommand a b) {win win' cnt cnt' : BitVec 8} {prev prev' : Bool}
    (hwin : win = win') (hprev : prev = prev') (hcnt : cnt = cnt') :
    SameCommand { a with win := win, prev := prev, cnt := cnt } { b with win := win', prev := prev', cnt := cnt' } := by
  obtain ⟨hparams, hphase, hmode, htimer, _, hrest⟩ := h
  exact ⟨hparams, hphase, hmode, htimer, fun _ => ⟨hwin, hprev, hcnt⟩, hrest⟩

theorem sameCommand_capHit (h : SameCommand a b) (c : Bool) :
    SameCommand { a with capHit := c } { b with capHit := c } := by
  obtain ⟨hparams, hphase, hmode, htimer, hwindow, hnbits, hfb, hattempts, _, houtcome⟩ := h
  exact ⟨hparams, hphase, hmode, htimer, hwindow, hnbits, hfb, hattempts, rfl, houtcome⟩

theorem sameCommand_exitStartLow (h : SameCommand a b) : SameCommand (exitStartLow a) (exitStartLow b) :=
  sameCommand_phase h .startHigh nofun

theorem sameCommand_enterCapture (h : SameCommand a b) : SameCommand (enterCapture a) (enterCapture b) := by
  obtain ⟨hparams, _, hmode, htimer, _, hrest⟩ := h
  exact ⟨hparams, rfl, hmode, htimer, fun _ => ⟨rfl, rfl, rfl⟩, hrest⟩

theorem sameCommand_beginAttempt (h : SameCommand a b) {k k' : BitVec 8} (hk : k = k') :
    SameCommand (beginAttempt k a) (beginAttempt k' b) := by
  obtain ⟨hparams, _, hmode, _, _, _, _, _, _, houtcome⟩ := h
  exact ⟨hparams, rfl, hmode, rfl, nofun, rfl, rfl, hk, rfl, houtcome⟩

theorem sameCommand_completeCommand (h : SameCommand a b) (outcome : Err) :
    SameCommand (completeCommand outcome a) (completeCommand outcome b) := by
  obtain ⟨hparams, _, hmode, htimer, _, hnbits, hfb, hattempts, hcap, hok, _, hresults⟩ := h
  exact ⟨hparams, rfl, hmode, htimer, nofun, hnbits, hfb, hattempts, hcap, hok, rfl, hresults⟩

theorem sameCommand_assembleBit (h : SameCommand a b) {bit bit' : Bool} (hbit : bit = bit') :
    SameCommand (assembleBit bit a) (assembleBit bit' b) := by
  obtain ⟨hparams, hphase, hmode, htimer, hwindow, hnbits, hfb, hrest⟩ := h
  refine ⟨hparams, hphase, hmode, htimer, hwindow, ?_, ?_, hrest⟩
  · rw [assembleBit, assembleBit, hnbits]
  · rw [assembleBit, assembleBit, hnbits, hfb, hbit]

theorem sameCommand_commit (h : SameCommand a b) : SameCommand (commit a) (commit b) := by
  obtain ⟨hparams, _, hmode, htimer, _, hnbits, hfb, hattempts, hcap, _⟩ := h
  exact ⟨hparams, rfl, hmode, htimer, nofun, hnbits, hfb, hattempts, hcap, rfl, rfl, hfb,
    congrArg humidityX10 hfb, congrArg temperatureX10 hfb⟩

/-! ## The cycle of each phase -/

/-- Both states take the same branch of a test that they agree on. -/
theorem sameCommand_ite {c c' : Prop} [Decidable c] [Decidable c'] {a₁ a₂ b₁ b₂ : State} (hc : c ↔ c')
    (h₁ : c → SameCommand a₁ b₁) (h₂ : ¬ c → SameCommand a₂ b₂) :
    SameCommand (if c then a₁ else a₂) (if c' then b₁ else b₂) := by
  by_cases h : c
  · rw [if_pos h, if_pos (hc.mp h)]
    exact h₁ h
  · rw [if_neg h, if_neg (mt hc.mpr h)]
    exact h₂ h

theorem sameCommand_timedCycle (h : SameCommand a b) {n n' : BitVec 24} (hn : n = n') (tick : Bool)
    {exit : State → State} (hexit : ∀ {a b}, SameCommand a b → SameCommand (exit a) (exit b)) :
    SameCommand (timedCycle n exit tick a) (timedCycle n' exit tick b) := by
  have ⟨_, _, _, htimer, _⟩ := h
  refine sameCommand_ite (by rw [hn, htimer]) (fun _ => ?_) (fun _ => sameCommand_ite Iff.rfl (fun _ => ?_) fun _ => h)
  · exact hexit (sameCommand_timer h rfl)
  · exact sameCommand_timer h (by rw [htimer])

theorem sameCommand_exitSettle (h : SameCommand a b) : SameCommand (exitSettle a) (exitSettle b) := by
  have ⟨⟨_, _, _, _, hbound, _⟩, _, _, _, _, _, _, hattempts, _⟩ := h
  refine sameCommand_ite (by rw [hbound, hattempts]) (fun _ => ?_) (fun _ => ?_)
  · exact sameCommand_beginAttempt h (by rw [hattempts])
  · exact sameCommand_completeCommand h _

theorem sameCommand_sameLevel (h : SameCommand a b) (p : a.phase = .capture) :
    SameCommand (sameLevel a) (sameLevel b) := by
  have ⟨_, _, _, _, hwindow, _⟩ := h
  obtain ⟨hwin, hprev, hcnt⟩ := hwindow p
  refine sameCommand_ite (by rw [hcnt]) (fun _ => ?_) (fun _ => ?_)
  · exact sameCommand_phase (sameCommand_capHit (sameCommand_window h hwin hprev rfl) true) .validate nofun
  · exact sameCommand_window h hwin hprev (by rw [hcnt])

theorem sameCommand_levelChange (h : SameCommand a b) (p : a.phase = .capture) (sample : Bool) :
    SameCommand (levelChange sample a) (levelChange sample b) := by
  have ⟨⟨_, _, _, hthreshold, _⟩, _, _, _, hwindow, hnbits, _⟩ := h
  obtain ⟨hwin, _, hcnt⟩ := hwindow p
  have hclassify : SameCommand (classify a.win a.cnt a) (classify b.win b.cnt b) :=
    sameCommand_ite (by rw [hwin, hnbits])
      (fun _ => sameCommand_assembleBit h (by rw [hcnt, hthreshold])) fun _ => h
  exact sameCommand_window hclassify (by rw [hwin]) rfl rfl

theorem sameCommand_captureCycle (h : SameCommand a b) (p : a.phase = .capture) (tick sample : Bool) :
    SameCommand (captureCycle tick sample a) (captureCycle tick sample b) := by
  have ⟨⟨_, _, hmax, _⟩, _, _, _, hwindow, _⟩ := h
  obtain ⟨hwin, hprev, _⟩ := hwindow p
  refine sameCommand_ite (by rw [hmax, hwin]) (fun _ => ?_) (fun _ => sameCommand_ite Iff.rfl (fun _ => ?_) fun _ => h)
  · exact sameCommand_phase h .validate nofun
  · exact sameCommand_ite (by rw [hprev]) (fun _ => sameCommand_sameLevel h p)
      fun _ => sameCommand_levelChange h p sample

theorem sameCommand_failAttempt (h : SameCommand a b) (kind : FailKind) :
    SameCommand (failAttempt kind a) (failAttempt kind b) := by
  have ⟨_, _, hmode, _⟩ := h
  cases hm : a.mode
  · rw [failAttempt_decode kind a hm, failAttempt_decode kind b (hmode.symm.trans hm)]
    exact sameCommand_completeCommand h _
  · rw [failAttempt_acquire kind a hm, failAttempt_acquire kind b (hmode.symm.trans hm)]
    exact sameCommand_phase (sameCommand_timer h (Eq.refl 0#24)) .settle nofun

theorem sameCommand_validateCycle (h : SameCommand a b) : SameCommand (validateCycle a) (validateCycle b) := by
  have ⟨_, _, _, _, _, hnbits, hfb, _⟩ := h
  refine sameCommand_ite (by rw [hnbits]) (fun _ => ?_) (fun _ => ?_)
  · exact sameCommand_failAttempt h .incomplete
  refine sameCommand_ite (by rw [hfb]) (fun _ => ?_) (fun _ => ?_)
  · exact sameCommand_failAttempt h .checksumMismatch
  · exact sameCommand_commit h

/-! ## The whole cycle -/

theorem sameCommand_sequencer (h : SameCommand a b) (tick : Bool) {sample sample' : Bool}
    (hsample : a.phase = .capture → sample = sample') :
    SameCommand (sequencer tick sample a) (sequencer tick sample' b) := by
  have ⟨⟨hlow, hhigh, _, _, _, hsettle⟩, hphase, _⟩ := h
  rcases sequencer_cases tick sample a with ⟨p, e⟩ | ⟨p, e⟩ | ⟨p, e⟩ | ⟨p, e⟩ | ⟨p, e⟩ | ⟨p, e⟩ <;> rw [e]
  all_goals have p' := hphase.symm.trans p
  · rw [sequencer_idle tick sample' b p']
    exact h
  · rw [sequencer_startLow tick sample' b p']
    exact sameCommand_timedCycle h hlow tick sameCommand_exitStartLow
  · rw [sequencer_startHigh tick sample' b p']
    exact sameCommand_timedCycle h (by rw [hhigh]) tick sameCommand_enterCapture
  · rw [sequencer_capture tick sample' b p', hsample p]
    exact sameCommand_captureCycle h p tick sample'
  · rw [sequencer_validate tick sample' b p']
    exact sameCommand_validateCycle h
  · rw [sequencer_settle tick sample' b p']
    exact sameCommand_timedCycle h hsettle tick sameCommand_exitSettle

/-- The clock writes nothing that a command reads (R22). -/
theorem sameCommand_edge (h : SameCommand a b) (htick : a.pins.tickI = b.pins.tickI)
    (hsample : a.phase = .capture → a.sync2 = b.sync2) : SameCommand (edge a) (edge b) := by
  unfold edge
  rw [← htick]
  exact sameCommand_sequencer h _ hsample

end

/-- Settles O59: while a command runs the host writes only what no command reads, so that the edges decide. -/
theorem commandDependsOnTicksAndSamplesOnly : Obligations.CommandDependsOnTicksAndSamplesOnly := by
  intro a b a' b' h hbusy hra hrb htick hsample ha hb
  have hbusy' : b.phase ≠ .idle := by
    obtain ⟨_, hphase, _⟩ := h
    exact hphase ▸ hbusy
  obtain ⟨ea, _⟩ := cycleKind_busy hbusy (cycleKind_of_step hra ha)
  obtain ⟨eb, _⟩ := cycleKind_busy hbusy' (cycleKind_of_step hrb hb)
  rw [ea, eb]
  exact sameCommand_edge h htick hsample

end Sys2Proof.Machine
end

