-- ==== Sys2Proof/Proofs/RegisterAccess.lean ====
section
/-! Reads and addresses: a read leaves the cycle as it is (R65), a transaction acts on the slot of its address alone (R63),
and a register's bytes at the host's addresses (R64). -/

namespace Sys2Proof.Machine

/-- Settles O11: RD is the sequencer's edge with the value read, and in IDLE the edge touches no register. -/
theorem readHasNoSideEffect : Obligations.ReadHasNoSideEffect := by
  refine fun s addr wdata => ⟨_, exec_rd s addr wdata, rfl, fun hidle a => ?_⟩
  rw [edge_of_idle hidle]
  rfl

/-! ## The slot of an address -/

/-- A command's meaning does not depend on its address (R81). -/
theorem exec_decodeCmd (addr addr' : Offset) (s : State) (ignored : BitVec 28) (code : BitVec 4) :
    exec (decodeCmd addr ignored code) s = exec (decodeCmd addr' ignored code) s := by
  unfold decodeCmd
  split
  -- the reserved codes from 4 on
  case h_5 => split_ifs <;> rfl
  all_goals rfl

section
variable {addr addr' : Offset} (h : slotOf addr = slotOf addr')
include h

theorem busRead_of_slotOf_eq (s : State) : busRead s addr = busRead s addr' := by
  rw [busRead, busRead, Reg.ofAddr, Reg.ofAddr, h]

/-- A write's meaning depends on the slot of its address alone (R63, R89). -/
theorem exec_decodeWrite_of_slotOf_eq (s : State) (wdata : Word) :
    exec (decodeWrite addr wdata) s = exec (decodeWrite addr' wdata) s := by
  unfold decodeWrite
  rw [h]
  split
  -- slot 0x02, CMD
  case h_3 => exact exec_decodeCmd addr addr' s _ _
  -- the reserved slots from 0x0E on
  case h_15 => split_ifs <;> rfl
  all_goals rfl

end

theorem slotOf_and_mask (addr : Offset) : slotOf (addr &&& 0xFC#8) = slotOf addr := by
  revert addr
  decide

/-- Settles O12: a write by the slot it decodes from, a read by the slot it reads. -/
theorem addressLowBitsIgnored : Obligations.AddressLowBitsIgnored := by
  intro s we addr wdata
  have hslot := (slotOf_and_mask addr).symm
  rw [decode_transactionWord, decode_transactionWord]
  cases we
  · simp only [Bool.false_eq_true, if_false, exec_rd, busRead_of_slotOf_eq hslot]
  · exact exec_decodeWrite_of_slotOf_eq hslot s wdata

/-! ## The bytes of a register -/

/-- The registers lie at whole words below 0x34 (R26). -/
theorem offset_toNat (r : Reg) : r.offset.toNat % 4 = 0 ∧ r.offset.toNat ≤ 0x30 := by
  cases r <;> decide

/-- Each of the four byte addresses of a register selects it (R63). -/
theorem ofAddr_offset_add (r : Reg) {k : Nat} (hk : k < 4) :
    Reg.ofAddr (BitVec.ofNat 8 (r.offset.toNat + k)) = some r := by
  revert k
  cases r <;> decide

theorem hostByte_offset_add (s : State) (r : Reg) {k : Nat} (hk : k < 4) :
    hostByte s (Config.pBaseAddr + r.offset.toNat + k) = some (byteOf (Reg.read s r) k) := by
  obtain ⟨halign, hlast⟩ := offset_toNat r
  have hsub : Config.pBaseAddr + r.offset.toNat + k - Config.pBaseAddr = r.offset.toNat + k := by omega
  have hbyte : (r.offset.toNat + k) % 4 = k := by omega
  rw [hostByte, if_pos ⟨by omega, by omega⟩, hsub, hbyte, busRead, ofAddr_offset_add r hk]

/-- RAW_LO at the width its bytes add up to, which is that of a register. -/
def rawLoLayout (f : Frame) : BitVec (8 + 8 + 8 + 8) := f.b3 ++ f.b2 ++ f.b1 ++ f.b0

theorem rawLoLayout_bytes (f : Frame) :
    (rawLoLayout f).extractLsb' 0 8 = f.b0 ∧ (rawLoLayout f).extractLsb' 24 8 = f.b3 := by
  constructor <;>
    simp (disch := decide) only [rawLoLayout, BitVec.extractLsb'_append_eq_of_le,
      BitVec.extractLsb'_append_eq_of_add_le, Nat.reduceSub, BitVec.extractLsb'_eq_self]

/-- Settles O13: the bytes through the address of their register, the halves from the concatenation. -/
theorem registerBytesAtHostAddresses : Obligations.RegisterBytesAtHostAddresses := by
  refine ⟨fun s r k hk => hostByte_offset_add s r hk, fun s => ?_⟩
  obtain ⟨h0, h3⟩ := rawLoLayout_bytes s.raw
  refine ⟨h0, h3, ?_, ?_⟩
  · exact (BitVec.extractLsb'_append_eq_of_add_le (by decide)).trans BitVec.extractLsb'_eq_self
  · exact (BitVec.extractLsb'_append_eq_of_le (by decide)).trans BitVec.extractLsb'_eq_self

end Sys2Proof.Machine
end

