-- ==== Sys2Proof/Proofs/HostLimits.lean ====
section
/-! What the host cannot do: disturb a running command (R74), change the configuration by another write (R71), take a
completion away (R235), or change a result but by starting a command (R67). -/

namespace Sys2Proof.Machine

/-- Settles O25: a busy cycle writes only the flags and the value read over the edge. -/
theorem hostCannotDisturbARunningCommand : Obligations.HostCannotDisturbARunningCommand := by
  intro i s hbusy
  obtain ⟨t, h⟩ := exec_next i s
  exact ⟨t, h, (cycleKind_busy hbusy (exec_cases h)).1⟩

/-! ## The configuration -/

theorem sameParams_of_busy {s t : State} (hbusy : s.phase ≠ .idle) (h : CycleKind s t) : SameParams s t := by
  rw [(cycleKind_busy hbusy h).1]
  exact edge_sameParams s

/-- The acceptance of a command leaves the configuration (R110). -/
theorem acceptCommand_config (m : Mode) (s : State) :
    SameParams s (acceptCommand m s) ∧ (acceptCommand m s).irqEn = s.irqEn := by
  rcases acceptCommand_cases m s with ⟨_, _, e⟩ | ⟨_, e⟩ <;> rw [e] <;>
    exact ⟨⟨rfl, rfl, rfl, rfl, rfl, rfl⟩, rfl⟩

/-- A start command leaves the configuration, accepted or rejected. -/
theorem startCommand_config {m : Mode} {s t : State} (h : startCommand m s = .next t) :
    SameParams s t ∧ t.irqEn = s.irqEn := by
  rcases startCommand_cases h with ⟨_, e⟩ | ⟨_, e⟩ <;> rw [e]
  · exact ⟨edge_sameParams s, edge_irqEn s⟩
  · exact acceptCommand_config m (clocked s)

/-- Settles O26: a parameter write stores at most its own parameter, WR_CTRL IRQ_EN alone, and every other operation leaves
the configuration as the edge does, which keeps it. -/
theorem configurationChangesOnlyByItsWrites : Obligations.ConfigurationChangesOnlyByItsWrites := by
  intro i s t h
  refine ⟨fun hbusy => sameParams_of_busy hbusy (exec_cases h), ?_⟩
  cases i
  case wrParamTStartLow | wrParamTStartHigh | wrParamMaxWindows | wrParamBitThreshold | wrParamRetryBound |
      wrParamTSettle =>
    simp only [exec_wrParamTStartLow, exec_wrParamTStartHigh, exec_wrParamMaxWindows, exec_wrParamBitThreshold,
      exec_wrParamRetryBound, exec_wrParamTSettle] at h
    rcases writeLocked_cases h with ⟨_, e⟩ | ⟨_, e⟩ <;> rw [e] <;> simp
  case cmdAcquire | cmdDecode =>
    obtain ⟨⟨hlow, hhigh, hmax, hthreshold, hbound, hsettle⟩, hirq⟩ := startCommand_config h
    simp [hlow, hhigh, hmax, hthreshold, hbound, hsettle, hirq]
  all_goals
    rw [← Host.Outcome.next.inj h]
    simp [clearFlags]

/-! ## Completion -/

/-- The host cannot lower DONE at a completion (R74 b). -/
theorem done_of_atCompletion {s t : State} (hbusy : s.phase ≠ .idle) (h : CycleKind s t) (hat : AtCompletion s) :
    t.done = true := by
  have hset := (setsDone_iff_atCompletion s).mpr hat
  obtain ⟨_, hdone | ⟨_, hnot⟩⟩ := cycleKind_busy hbusy h
  · rw [hdone, edge_done, hset, Bool.true_or]
  · simp [hset] at hnot

/-- A start command and a parameter write are rejected while a command runs (R104, R107, R108). -/
theorem rej_of_busy {i : Instr} {s t : State} (h : exec i s = .next t) (hbusy : s.phase ≠ .idle)
    (hi : (∃ a n, i ∈ [Instr.cmdAcquire a n, .cmdDecode a n]) ∨
      (∃ a w, i ∈ [Instr.wrParamTStartLow a w, .wrParamTStartHigh a w, .wrParamMaxWindows a w,
        .wrParamBitThreshold a w, .wrParamRetryBound a w, .wrParamTSettle a w])) : t.rej = true := by
  have hrej := rejFollowsTheRejections.2 i s t h
  simp only [List.mem_cons, List.not_mem_nil, or_false] at hi
  rcases hi with ⟨a, n, rfl | rfl⟩ | ⟨a, w, rfl | rfl | rfl | rfl | rfl | rfl⟩ <;> exact hrej.mpr (.inl hbusy)

/-- Settles O29: the phase is the edge's, DONE is set at its completion, and the host's write is judged against the busy
phase before it. -/
theorem completionBeatsTheHostWrite : Obligations.CompletionBeatsTheHostWrite := by
  intro s hr hbusy
  obtain ⟨t, h⟩ := step_next hr
  have hkind := cycleKind_of_step hr h
  have hphase : t.phase = (edge s).phase := by rw [(cycleKind_busy hbusy hkind).1]
  refine ⟨t, h, hphase ▸ edge_idle_iff_atCompletion hbusy, fun hat => ?_⟩
  refine ⟨done_of_atCompletion hbusy hkind hat, sameParams_of_busy hbusy hkind, fun hb hi => ?_⟩
  rw [step_of_transaction s hr hb] at h
  exact rej_of_busy h hbusy hi

/-! ## The results -/

/-- The sequencer writes the results at a commit alone (R195). -/
theorem edge_results (s : State) :
    ((edge s).raw = s.raw ∧ (edge s).humX10 = s.humX10 ∧ (edge s).tempX10 = s.tempX10) ∨
    (s.phase = .validate ∧ 40#6 ≤ s.nbits ∧ s.fb.b4 = checksum s.fb ∧ edge s = clocked (commit s)) := by
  have hseq := sequencerTo s.pins.tickI s.sync2 s
  rw [edge]
  generalize sequencer s.pins.tickI s.sync2 s = u at hseq
  cases hseq
  case commit p h40 hsum => exact .inr ⟨p, h40, hsum, rfl⟩
  all_goals exact .inl ⟨rfl, rfl, rfl⟩

/-- The acceptance of a command clears the results (R110). -/
theorem acceptCommand_results (m : Mode) (s : State) :
    (acceptCommand m s).raw = .zero ∧ (acceptCommand m s).humX10 = 0#16 ∧ (acceptCommand m s).tempX10 = 0#16 ∧
      (acceptCommand m s).ok = false := by
  rcases acceptCommand_cases m s with ⟨_, _, e⟩ | ⟨_, e⟩ <;> rw [e] <;> exact ⟨rfl, rfl, rfl, rfl⟩

/-- A step leaves the results as its edge does, or accepts a command and clears them. -/
theorem step_results {s t : State} (hr : s.pins.rstN = true) (h : step s = .next t) :
    (t.raw = (edge s).raw ∧ t.humX10 = (edge s).humX10 ∧ t.tempX10 = (edge s).tempX10 ∧ t.ok = (edge s).ok ∧
      t.phase = (edge s).phase) ∨
    (s.phase = .idle ∧ s.pins.busSel = true ∧
      (∃ a n, decode s.pins.word = .cmdAcquire a n ∨ decode s.pins.word = .cmdDecode a n) ∧
      t.raw = .zero ∧ t.humX10 = 0#16 ∧ t.tempX10 = 0#16 ∧ t.ok = false) := by
  rcases step_cases h with ⟨hr', _⟩ | ⟨_, _, e⟩ | ⟨_, hb, hexec⟩
  · simp [hr] at hr'
  · exact .inl (by simp [e])
  · rcases exec_edge_or_accept hexec with e | ⟨hidle, hstart, m, e⟩
    · exact .inl (by rw [e]; exact ⟨rfl, rfl, rfl, rfl, rfl⟩)
    · exact .inr ⟨hidle, hb, hstart, e ▸ acceptCommand_results m (clocked s)⟩

/-- Settles O32: the results change at an acceptance, or at an edge that commits, which is a completion. -/
theorem resultsChangeOnlyAtAcceptanceAndSuccess : Obligations.ResultsChangeOnlyAtAcceptanceAndSuccess := by
  intro s t hr h
  rcases step_results hr h with ⟨hraw, hhum, htemp, hok, hphase⟩ | haccepted
  · rcases edge_results s with ⟨hraw', hhum', htemp'⟩ | ⟨p, h40, hsum, e⟩
    · exact .inl ⟨hraw.trans hraw', hhum.trans hhum', htemp.trans htemp'⟩
    · rw [e] at hraw hhum htemp hok hphase
      have hmod := (eq_checksum_iff _ _).mp hsum
      have hset := (setsDone_iff_atCompletion s).mpr (.inl ⟨p, .inr ⟨h40, hmod⟩⟩)
      exact .inr (.inr ⟨p, h40, hmod, hset, hphase, hok, hraw, hhum, htemp⟩)
  · exact .inr (.inl haccepted)

end Sys2Proof.Machine
end

