-- ==== Sys2Proof/Proofs/DecodeEncode.lean ====
section
/-! Decoding and encoding are inverse to one another (R80, R81, R89); the decode procedure, the words of the spec and those
of the host's notation follow from it. -/

namespace Sys2Proof

/-! ## Slots and codes -/

theorem slotWithin_iff {lo hi : Nat} {addr : Offset} :
    slotWithin lo hi addr = true ↔ lo ≤ (slotOf addr).toNat ∧ (slotOf addr).toNat ≤ hi := by
  rw [slotWithin, Bool.and_eq_true, decide_eq_true_iff, decide_eq_true_iff, slotOf]

theorem slotWithin_self_iff {n : Nat} {addr : Offset} : slotWithin n n addr = true ↔ (slotOf addr).toNat = n := by
  rw [slotWithin_iff, Nat.le_antisymm_iff, and_comm]

/-- The slots of a row are a range of offsets (R60, R63). -/
theorem slotWithin_iff_offset {lo hi : Nat} {addr : Offset} :
    slotWithin lo hi addr = true ↔ 4 * lo ≤ (addr &&& 0xFC#8).toNat ∧ (addr &&& 0xFC#8).toNat ≤ 4 * hi := by
  rw [slotWithin_iff, slotOf_toNat]
  omega

/-- The code of a CMD write is the value of its masked data (R81, R89). -/
theorem code_toNat (wdata : Word) : (wdata.extractLsb' 0 4).toNat = (wdata &&& 0xF#32).toNat := by
  rw [BitVec.extractLsb'_toNat, BitVec.toNat_and, Nat.shiftRight_zero]
  exact (Nat.and_two_pow_sub_one_eq_mod wdata.toNat 4).symm

/-! ## Decoding the word of an operation -/

/-- A CMD write decodes by its code (R89). -/
theorem decode_cmd {addr : Offset} (ignored : BitVec 28) (code : BitVec 4) (h : slotWithin 2 2 addr = true) :
    decode (transactionWord true addr (cmdWdata ignored code)) = decodeCmd addr ignored code := by
  simp [decode_transactionWord, decodeWrite, slotWithin_self_iff.mp h]

/-- The reserved slots from 0x0E on (R49, R89). -/
theorem decodeWrite_reserved {addr : Offset} (wdata : Word) (h : 0x0E ≤ (slotOf addr).toNat) :
    decodeWrite addr wdata =
      if (slotOf addr).toNat < 0x10 then .wrIgnoredReserved38To3C addr wdata
      else if (slotOf addr).toNat < 0x20 then .wrIgnoredReserved40To7C addr wdata
      else .wrIgnoredReserved80ToFC addr wdata := by
  unfold decodeWrite
  split
  case h_15 => rfl
  all_goals omega

/-- The reserved codes from 4 on (R81, R89). -/
theorem decodeCmd_reserved (addr : Offset) (ignored : BitVec 28) {code : BitVec 4} (h : 4 ≤ code.toNat) :
    decodeCmd addr ignored code =
      if code.toNat < 8 then .cmdReserved4To7 addr ignored code else .cmdReserved8ToF addr ignored code := by
  unfold decodeCmd
  split
  case h_5 => rfl
  all_goals omega

/-- Settles O1: the slot of a well-formed operation's address, and the code of a command, choose its own branch of the
decode procedure. -/
theorem decodeOfEncode : Obligations.DecodeOfEncode := by
  intro i hwf
  cases i
  case rd addr wdata => exact decode_transactionWord false addr wdata
  case cmdNop | cmdAcquire | cmdDecode | cmdReserved3 => exact decode_cmd _ _ hwf
  case cmdReserved4To7 addr ignored code =>
    simp only [Instr.wf, Bool.and_eq_true, decide_eq_true_eq] at hwf
    obtain ⟨⟨hslot, hlo⟩, hhi⟩ := hwf
    rw [encode, decode_cmd _ _ hslot, decodeCmd_reserved _ _ hlo, if_pos (by omega)]
  case cmdReserved8ToF addr ignored code =>
    simp only [Instr.wf, Bool.and_eq_true, decide_eq_true_eq] at hwf
    obtain ⟨hslot, hlo⟩ := hwf
    rw [encode, decode_cmd _ _ hslot, decodeCmd_reserved _ _ (by omega), if_neg (by omega)]
  case wrIgnoredReserved38To3C | wrIgnoredReserved40To7C | wrIgnoredReserved80ToFC =>
    obtain ⟨hlo, hhi⟩ := slotWithin_iff.mp hwf
    simp (disch := omega) only [encode, decode_transactionWord, decodeWrite_reserved, if_true, if_pos,
      if_neg]
  all_goals simp [encode, decode_transactionWord, decodeWrite, slotWithin_self_iff.mp hwf]

/-! ## Encoding the operation of a word -/

/-- Every code names a well-formed command, whose word it is (R81). -/
theorem decodeCmd_encodes {addr : Offset} (ignored : BitVec 28) (code : BitVec 4) (h : (slotOf addr).toNat = 2) :
    (decodeCmd addr ignored code).wf = true ∧
      encode (decodeCmd addr ignored code) = transactionWord true addr (cmdWdata ignored code) := by
  have hslot := slotWithin_self_iff.mpr h
  unfold decodeCmd
  split
  -- the reserved codes from 4 on
  case h_5 =>
    simp only [imp_false] at *
    split_ifs
    all_goals
      refine ⟨?_, rfl⟩
      simp only [Instr.wf, hslot, Bool.true_and, Bool.and_eq_true, decide_eq_true_eq]
      omega
  all_goals
    next hcode =>
    exact ⟨hslot, congrArg (fun c => transactionWord true addr (cmdWdata ignored c))
      (BitVec.eq_of_toNat_eq hcode.symm)⟩

/-- Every write names a well-formed operation, whose word it is (R89). -/
theorem decodeWrite_encodes (addr : Offset) (wdata : Word) :
    (decodeWrite addr wdata).wf = true ∧ encode (decodeWrite addr wdata) = transactionWord true addr wdata := by
  unfold decodeWrite
  split
  -- slot 0x02, CMD
  case h_3 h =>
    have hcmd := decodeCmd_encodes (wdata.extractLsb' 4 28) (wdata.extractLsb' 0 4) h
    rwa [cmdWdata_eta] at hcmd
  -- the reserved slots from 0x0E on
  case h_15 =>
    have hlast := (slotOf addr).isLt
    simp only [imp_false] at *
    split_ifs <;> exact ⟨slotWithin_iff.mpr (by omega), rfl⟩
  all_goals
    next h => exact ⟨slotWithin_self_iff.mpr h, rfl⟩

/-- Settles O2: a word is the word of its own fields, and each direction of the bus encodes them again. -/
theorem encodeOfDecode : Obligations.EncodeOfDecode := by
  intro w
  have heta := transactionWord_eta w
  unfold decode
  cases hwe : w.getLsbD 40 <;> rw [hwe] at heta
  · exact ⟨rfl, heta⟩
  · obtain ⟨hwf, henc⟩ := decodeWrite_encodes (w.extractLsb' 32 8) (w.extractLsb' 0 32)
    exact ⟨hwf, henc.trans heta⟩

/-! ## The decode procedure -/

/-- Settles O4: each line is the decoding of a well-formed operation's word; the offset is four times the slot, and a CMD
write's data is its ignored bits and its code. -/
theorem decodeProcedure : Obligations.DecodeProcedure := by
  intro addr wdata off code low ignored w
  have hslot {n : Nat} {o : Offset} (ho : o.toNat = 4 * n) (h : off = o) : slotWithin n n addr = true :=
    slotWithin_iff_offset.mpr ⟨(h ▸ ho).ge, (h ▸ ho).le⟩
  have hcode : low.toNat = code.toNat := code_toNat wdata
  have hlow (c : BitVec 4) {v : Word} (h : code = v) (hv : c.toNat = v.toNat) : low = c :=
    BitVec.eq_of_toNat_eq (by rw [hcode, h, hv])
  have hcmd (h : off = 0x08#8) : decode w = decodeCmd addr ignored low := by
    have hdecode := decode_cmd ignored low (hslot rfl h)
    rwa [cmdWdata_eta] at hdecode
  refine ⟨decodeOfEncode (.rd addr wdata) rfl, fun h => decodeOfEncode (.wrCtrl addr wdata) (hslot rfl h),
    fun h hc => ?cmdNop, fun h hc => ?cmdAcquire, fun h hc => ?cmdDecode, fun h hc => ?cmdReserved3,
    fun h hlo hhi => ?cmdReserved4To7, fun h hlo => ?cmdReserved8ToF,
    fun h => decodeOfEncode (.wrStatus addr wdata) (hslot rfl h),
    fun h => decodeOfEncode (.wrParamTStartLow addr wdata) (hslot rfl h),
    fun h => decodeOfEncode (.wrParamTStartHigh addr wdata) (hslot rfl h),
    fun h => decodeOfEncode (.wrParamMaxWindows addr wdata) (hslot rfl h),
    fun h => decodeOfEncode (.wrParamBitThreshold addr wdata) (hslot rfl h),
    fun h => decodeOfEncode (.wrParamRetryBound addr wdata) (hslot rfl h),
    fun h => decodeOfEncode (.wrParamTSettle addr wdata) (hslot rfl h),
    fun h => decodeOfEncode (.wrIgnoredId addr wdata) (hslot rfl h),
    fun h => decodeOfEncode (.wrIgnoredRawLo addr wdata) (hslot rfl h),
    fun h => decodeOfEncode (.wrIgnoredRawHi addr wdata) (hslot rfl h),
    fun h => decodeOfEncode (.wrIgnoredReading addr wdata) (hslot rfl h),
    fun h => decodeOfEncode (.wrIgnoredReserved34 addr wdata) (hslot rfl h),
    fun h => decodeOfEncode (.wrIgnoredReserved38To3C addr wdata) (slotWithin_iff_offset.mpr ?_),
    fun hlo hhi => decodeOfEncode (.wrIgnoredReserved40To7C addr wdata) (slotWithin_iff_offset.mpr ⟨hlo, hhi⟩),
    fun hlo => decodeOfEncode (.wrIgnoredReserved80ToFC addr wdata) (slotWithin_iff_offset.mpr ⟨hlo, ?_⟩)⟩
  case cmdNop => rw [hcmd h, hlow 0#4 hc rfl]; rfl
  case cmdAcquire => rw [hcmd h, hlow 1#4 hc rfl]; rfl
  case cmdDecode => rw [hcmd h, hlow 2#4 hc rfl]; rfl
  case cmdReserved3 => rw [hcmd h, hlow 3#4 hc rfl]; rfl
  case cmdReserved4To7 =>
    have hlo : 4 ≤ code.toNat := hlo
    have hhi : code.toNat ≤ 7 := hhi
    rw [hcmd h, decodeCmd_reserved _ _ (by omega), if_pos (by omega)]
  case cmdReserved8ToF =>
    have hlo : 8 ≤ code.toNat := hlo
    rw [hcmd h, decodeCmd_reserved _ _ (by omega), if_neg (by omega)]
  · rcases h with h | h <;> rw [show addr &&& 0xFC#8 = _ from h] <;> decide
  · rw [slotOf_toNat]
    omega

/-! ## The words of the spec and of the host's notation -/

/-- Settles O5: each word is a fixed one, computed. -/
theorem specWordsDecode : Obligations.SpecWordsDecode := by
  unfold Obligations.SpecWordsDecode
  decide

/-- Settles O6: the fixed words are computed, and SET's word is that of a well-formed parameter write, whatever its
value. -/
theorem pseudoInstructionWords : Obligations.PseudoInstructionWords :=
  ⟨by decide, by decide, by decide, by decide, by decide, by decide, by decide, by decide, by decide,
    fun _ => Iff.rfl, fun v =>
      ⟨decodeOfEncode (.wrParamTStartLow _ v) rfl, decodeOfEncode (.wrParamTStartHigh _ v) rfl,
        decodeOfEncode (.wrParamMaxWindows _ v) rfl, decodeOfEncode (.wrParamBitThreshold _ v) rfl,
        decodeOfEncode (.wrParamRetryBound _ v) rfl, decodeOfEncode (.wrParamTSettle _ v) rfl⟩⟩

end Sys2Proof
end

