-- ==== Sys2Proof/Proofs/OpcodeTable.lean ====
section
/-! A word lies in exactly one row of the opcode table (R88, R89): in the row of its operation, because it is that
operation's word, and in no other, because the fixed bits of any two rows disagree somewhere. -/

namespace Sys2Proof

/-- The rows of the table, one for each constructor; a row reads no operand. -/
def tableRows : List TableRow :=
  [Instr.rd 0 0, .wrCtrl 0 0, .cmdNop 0 0, .cmdAcquire 0 0, .cmdDecode 0 0, .cmdReserved3 0 0, .cmdReserved4To7 0 0 0,
    .cmdReserved8ToF 0 0 0, .wrStatus 0 0, .wrParamTStartLow 0 0, .wrParamTStartHigh 0 0, .wrParamMaxWindows 0 0,
    .wrParamBitThreshold 0 0, .wrParamRetryBound 0 0, .wrParamTSettle 0 0, .wrIgnoredId 0 0, .wrIgnoredRawLo 0 0,
    .wrIgnoredRawHi 0 0, .wrIgnoredReading 0 0, .wrIgnoredReserved34 0 0, .wrIgnoredReserved38To3C 0 0,
    .wrIgnoredReserved40To7C 0 0, .wrIgnoredReserved80ToFC 0 0].map tableRow

theorem tableRow_mem_tableRows (i : Instr) : tableRow i ∈ tableRows := by
  cases i <;> simp [tableRows, tableRow]

/-- Two rows whose fixed bits agree wherever both fix one are the same row. -/
theorem eq_of_fixed_bits_agree :
    ∀ r ∈ tableRows, ∀ r' ∈ tableRows, r.value &&& r'.mask = r'.value &&& r.mask → r = r' := by
  decide

/-- In the rows of one word the fixed bits agree. -/
theorem TableRow.fixed_bits_agree {r r' : TableRow} {w : TransactionWord} (h : r.holds w = true)
    (h' : r'.holds w = true) : r.value &&& r'.mask = r'.value &&& r.mask := by
  rw [← eq_of_beq h, ← eq_of_beq h', BitVec.and_assoc, BitVec.and_comm r.mask, ← BitVec.and_assoc]

open Laws.RowMatch in
/-- The word of a well-formed operation lies in the operation's row. -/
theorem tableRow_holds_encode : ∀ i : Instr, i.wf = true → (tableRow i).holds (encode i) = true
  | .rd addr wdata => rd addr wdata
  | .wrCtrl addr wdata => wrCtrl addr wdata
  | .cmdNop addr ignored => cmdNop addr ignored
  | .cmdAcquire addr ignored => cmdAcquire addr ignored
  | .cmdDecode addr ignored => cmdDecode addr ignored
  | .cmdReserved3 addr ignored => cmdReserved3 addr ignored
  | .cmdReserved4To7 addr ignored code => cmdReserved4To7 addr ignored code
  | .cmdReserved8ToF addr ignored code => cmdReserved8ToF addr ignored code
  | .wrStatus addr wdata => wrStatus addr wdata
  | .wrParamTStartLow addr wdata => wrParamTStartLow addr wdata
  | .wrParamTStartHigh addr wdata => wrParamTStartHigh addr wdata
  | .wrParamMaxWindows addr wdata => wrParamMaxWindows addr wdata
  | .wrParamBitThreshold addr wdata => wrParamBitThreshold addr wdata
  | .wrParamRetryBound addr wdata => wrParamRetryBound addr wdata
  | .wrParamTSettle addr wdata => wrParamTSettle addr wdata
  | .wrIgnoredId addr wdata => wrIgnoredId addr wdata
  | .wrIgnoredRawLo addr wdata => wrIgnoredRawLo addr wdata
  | .wrIgnoredRawHi addr wdata => wrIgnoredRawHi addr wdata
  | .wrIgnoredReading addr wdata => wrIgnoredReading addr wdata
  | .wrIgnoredReserved34 addr wdata => wrIgnoredReserved34 addr wdata
  | .wrIgnoredReserved38To3C addr wdata => wrIgnoredReserved38To3C addr wdata
  | .wrIgnoredReserved40To7C addr wdata => wrIgnoredReserved40To7C addr wdata
  | .wrIgnoredReserved80ToFC addr wdata => wrIgnoredReserved80ToFC addr wdata

/-- Settles O3: the word is that of its operation, and any other row of the word has the same fixed bits. -/
theorem wordLiesInOneTableRow : Obligations.WordLiesInOneTableRow := by
  intro w
  obtain ⟨hwf, henc⟩ := encodeOfDecode w
  have hrow : (tableRow (decode w)).holds w = true := by
    have hrow := tableRow_holds_encode _ hwf
    rwa [henc] at hrow
  exact ⟨hrow, fun i hi => eq_of_fixed_bits_agree _ (tableRow_mem_tableRows i) _ (tableRow_mem_tableRows _)
    (TableRow.fixed_bits_agree hi hrow)⟩

end Sys2Proof
end

