-- ==== Sys2Proof/Proofs/BusTransactions.lean ====
section
/-! The bus transaction in a cycle: the word on the pins is the word executed (R80, R101), a STATUS write clears DONE and REJ
(R103), and a parameter write reads back truncated to the parameter's width (R84, R104). -/

namespace Sys2Proof.Machine

/-! ## The transaction presented -/

/-- Settles O7, by the two equations of a step with reset inactive. -/
theorem stepRunsTheDecodedTransaction : Obligations.StepRunsTheDecodedTransaction :=
  fun s hr => ⟨step_of_transaction s hr, step_of_quiet s hr⟩

/-- The pins carry the word presented (R80). -/
theorem present_word (p : Pins) (w : TransactionWord) : (p.present w.toNat).word = w := by
  have haddr : BitVec.ofNat 8 (w.toNat / 2 ^ 32) = w.extractLsb' 32 8 := by
    rw [← Nat.shiftRight_eq_div_pow]
    rfl
  have hwdata : BitVec.ofNat 32 w.toNat = w.extractLsb' 0 32 := rfl
  rw [Pins.present, if_pos w.isLt, Pins.word, haddr, hwdata]
  exact transactionWord_eta w

/-- Whatever is presented, reset is inactive, and a transaction word is presented as a transaction (R80). -/
theorem present_rstN (p : Pins) (n : Nat) : (p.present n).rstN = true := by
  unfold Pins.present
  split <;> rfl

theorem present_busSel (p : Pins) (w : TransactionWord) : (p.present w.toNat).busSel = true := by
  rw [Pins.present, if_pos w.isLt]

theorem withFetchWord_pins (s : State) (w : TransactionWord) :
    (s.withFetchWord 41 w.toNat).pins = s.pins.present w.toNat := by
  rw [State.withFetchWord, Nat.mod_eq_of_lt w.isLt]
  rfl

/-- Settles O8: the coming cycle's pins have reset inactive and carry the word. -/
theorem presentedWordIsExecuted : Obligations.PresentedWordIsExecuted := by
  intro s w
  have hpins := withFetchWord_pins s w
  rw [step_of_transaction, hpins, present_word]
  · rw [hpins, present_rstN]
  · rw [hpins, present_busSel]

/-! ## The STATUS write -/

/-- Settles O16: DONE and REJ are those of the edge, each lowered by its own bit. -/
theorem wrStatusClearsDoneAndRej : Obligations.WrStatusClearsDoneAndRej := by
  intro s addr wdata
  refine ⟨_, exec_wrStatus s addr wdata, rfl, ?_, ?_⟩
  · simp only [clearFlags, edge_done]
    cases setsDone s <;> simp
  · simp [clearFlags, edge_rej]

/-! ## The parameter write -/

/-- A parameter's width of the write data reads back as the data masked to it (R84). -/
theorem paramRead_paramOperand {w : Nat} (hw : w ≤ 32) (wdata : Word) :
    paramRead (paramOperand w wdata) = wdata &&& BitVec.ofNat 32 (2 ^ w - 1) := by
  have hmask : 2 ^ w - 1 < 2 ^ 32 := by
    have := Nat.pow_le_pow_right (n := 2) (by decide) hw
    omega
  apply BitVec.eq_of_toNat_eq
  rw [paramRead, paramOperand, BitVec.toNat_and, BitVec.toNat_ofNat, Nat.mod_eq_of_lt hmask,
    Nat.and_two_pow_sub_one_eq_mod, BitVec.toNat_setWidth_of_le hw, BitVec.toNat_setWidth]

/-- In IDLE a locked register takes the write (R104). -/
theorem writeLocked_of_idle {s : State} (h : s.phase = .idle) (store : State → State) :
    writeLocked store s = .next (store (clocked s)) := by
  simp [writeLocked, busy, h, edge_of_idle h]

/-- What a locked write stores in IDLE is what the register then reads, masked to the parameter's width (R84, R104). -/
theorem reads_back_of_idle {i : Instr} {s : State} {store : State → State} {off : Offset} {wdata : Word} (w : Nat)
    (hw : w ≤ 32) (hidle : s.phase = .idle) (hexec : exec i s = writeLocked store s)
    (hread : ∀ u, busRead (store u) off = paramRead (paramOperand w wdata)) :
    ∃ t, exec i s = .next t ∧ busRead t off = wdata &&& BitVec.ofNat 32 (2 ^ w - 1) :=
  ⟨store (clocked s), hexec.trans (writeLocked_of_idle hidle store), (hread _).trans (paramRead_paramOperand hw wdata)⟩

/-- Settles O18, each parameter at its width. -/
theorem parametersReadBackTruncated : Obligations.ParametersReadBackTruncated := fun s addr wdata hidle =>
  ⟨reads_back_of_idle 24 (by decide) hidle (exec_wrParamTStartLow s addr wdata) fun _ => rfl,
    reads_back_of_idle 16 (by decide) hidle (exec_wrParamTStartHigh s addr wdata) fun _ => rfl,
    reads_back_of_idle 8 (by decide) hidle (exec_wrParamMaxWindows s addr wdata) fun _ => rfl,
    reads_back_of_idle 8 (by decide) hidle (exec_wrParamBitThreshold s addr wdata) fun _ => rfl,
    reads_back_of_idle 8 (by decide) hidle (exec_wrParamRetryBound s addr wdata) fun _ => rfl,
    reads_back_of_idle 24 (by decide) hidle (exec_wrParamTSettle s addr wdata) fun _ => rfl⟩

end Sys2Proof.Machine
end

