-- ==== Sys2Proof/Proofs/ReadData.lean ====
section
/-! What a read presents: RD the register that its address selects, every other cycle with reset inactive 0 (R100). -/

namespace Sys2Proof.Machine

/-! ## The register at an address -/

/-- An address selects the register whose offset it has once its low two bits are dropped (R26, R63). -/
theorem ofAddr_eq_some_iff (addr : Offset) (r : Reg) : Reg.ofAddr addr = some r ↔ addr &&& 0xFC#8 = r.offset := by
  constructor <;> intro h
  · rw [← BitVec.toNat_inj, slotOf_toNat]
    unfold Reg.ofAddr at h
    split at h
    -- the reserved slots
    case h_14 => cases h
    all_goals
      cases h
      simp [*, Reg.offset]
  · have hslot := slotOf_and_mask addr
    rw [h] at hslot
    rw [Reg.ofAddr, ← hslot]
    cases r <;> rfl

/-! ## The cycle without a read -/

/-- A write's word does not decode to RD: encoding RD gives a word with `we` = 0 (R80). -/
theorem decode_write_ne_rd (addr addr' : Offset) (wdata wdata' : Word) :
    decode (transactionWord true addr wdata) ≠ .rd addr' wdata' := by
  intro h
  have hword := (encodeOfDecode (transactionWord true addr wdata)).2
  rw [h, encode] at hword
  have hwe := congrArg (BitVec.getLsbD · 40) hword
  simp only [transactionWord_we, Bool.false_eq_true] at hwe

@[simp] theorem edge_rdata (s : State) : (edge s).rdata = 0#32 := by rw [edge_frame]

/-- A locked write or a start command, accepted or rejected, presents no value. -/
theorem writeLocked_rdata {store : State → State} {s t : State} (h : writeLocked store s = .next t)
    (hstore : ∀ u, (store u).rdata = u.rdata) : t.rdata = 0#32 := by
  rcases writeLocked_cases h with ⟨_, e⟩ | ⟨_, e⟩ <;> rw [e]
  · exact edge_rdata s
  · exact hstore (clocked s)

theorem acceptCommand_rdata (m : Mode) (s : State) : (acceptCommand m s).rdata = s.rdata := by
  rcases acceptCommand_cases m s with ⟨_, _, e⟩ | ⟨_, e⟩ <;> rw [e] <;> rfl

/-- Every operation but RD presents no value (R100). -/
theorem exec_rdata_of_ne_rd {i : Instr} {s t : State} (h : exec i s = .next t) (hi : ∀ addr wdata, i ≠ .rd addr wdata) :
    t.rdata = 0#32 := by
  cases i
  case rd addr wdata => exact absurd rfl (hi addr wdata)
  case wrParamTStartLow | wrParamTStartHigh | wrParamMaxWindows | wrParamBitThreshold | wrParamRetryBound |
      wrParamTSettle =>
    simp only [exec_wrParamTStartLow, exec_wrParamTStartHigh, exec_wrParamMaxWindows, exec_wrParamBitThreshold,
      exec_wrParamRetryBound, exec_wrParamTSettle] at h
    exact writeLocked_rdata h fun _ => rfl
  case cmdAcquire | cmdDecode => exact writeLocked_rdata h (acceptCommand_rdata _)
  all_goals
    rw [← Host.Outcome.next.inj h]
    exact edge_rdata s

/-- The read data of a cycle with reset inactive: the register's value for a read, else 0 (R100). -/
theorem step_rdata {s t : State} (hr : s.pins.rstN = true) (h : step s = .next t) :
    t.rdata = if s.pins.busSel = true ∧ s.pins.busWe = false then busRead s s.pins.busAddr else 0#32 := by
  cases hsel : s.pins.busSel
  · rw [step_of_quiet s hr hsel] at h
    rw [← Host.Outcome.next.inj h]
    exact edge_rdata s
  · rw [step_of_transaction s hr hsel, Pins.word] at h
    cases hwe : s.pins.busWe <;> rw [hwe] at h
    · rw [decode_transactionWord] at h
      rw [← Host.Outcome.next.inj h]
      rfl
    · exact exec_rdata_of_ne_rd h fun _ _ => decode_write_ne_rd _ _ _ _

/-- Settles O10: the value of a cycle by `step_rdata`; that of RD by the register the address selects, or none. -/
theorem readPresentsTheRegister : Obligations.ReadPresentsTheRegister := by
  refine ⟨fun s hr => ?_, fun s addr wdata => ⟨_, exec_rd s addr wdata, ?_⟩⟩
  · obtain ⟨t, h⟩ := step_next hr
    exact ⟨t, h, step_rdata hr h⟩
  · have hoffset := ofAddr_eq_some_iff addr
    simp only [busRead]
    cases hreg : Reg.ofAddr addr with
    | none =>
      have hne (r : Reg) : addr &&& 0xFC#8 ≠ r.offset := by
        rw [ne_eq, ← hoffset, hreg]
        nofun
      exact .symm <| (if_neg (hne .id)).trans <| (if_neg (hne .ctrl)).trans <| (if_neg (hne .cmd)).trans <|
        (if_neg (hne .status)).trans <| (if_neg (hne .tStartLow)).trans <| (if_neg (hne .tStartHigh)).trans <|
        (if_neg (hne .maxWindows)).trans <| (if_neg (hne .bitThreshold)).trans <|
        (if_neg (hne .retryBound)).trans <| (if_neg (hne .tSettle)).trans <| (if_neg (hne .rawLo)).trans <|
        (if_neg (hne .rawHi)).trans <| if_neg (hne .reading)
    | some r =>
      rw [(hoffset r).mp hreg]
      cases r
      case status =>
        rw [← busy_eq_decide]
        rfl
      all_goals rfl

end Sys2Proof.Machine
end

