-- ==== Sys2Proof/Proofs/HostOperations.lean ====
section
/-! What each write and each command of the host answers, in IDLE and while busy (R102 to R110), and that every cycle has an
answer (R101, R230). -/

namespace Sys2Proof.Machine

/-- Settles O9: with `rst_n` = 0 the reset edge, else the cycle of the host. -/
theorem everyCycleHasANextState : Obligations.EveryCycleHasANextState := by
  intro s
  cases hr : s.pins.rstN
  · exact ⟨_, step_of_reset s hr⟩
  · exact step_next hr

/-! ## Writes -/

/-- Settles O15: WR_CTRL is the edge with IRQ_EN written over it. -/
theorem wrCtrlWritesIrqEn : Obligations.WrCtrlWritesIrqEn := exec_wrCtrl

/-- While busy a locked register rejects the write (R104). -/
theorem writeLocked_of_busy {s : State} (hbusy : s.phase ≠ .idle) (store : State → State) :
    writeLocked store s = .next (setRej (edge s)) := by
  simp [writeLocked, busy, hbusy]

/-- Settles O17: the six parameter writes are locked writes. -/
theorem wrParamStoresOnlyWhenIdle : Obligations.WrParamStoresOnlyWhenIdle := by
  intro s addr wdata
  refine ⟨fun hidle => ?_, fun hbusy => ?_⟩
  · simp [writeLocked_of_idle hidle, paramOperand]
  · simp [writeLocked_of_busy hbusy, setRej]

/-- Settles O19: each of the nine is the edge alone, which in IDLE only shifts the synchronizer. -/
theorem ignoredWritesAndNopChangeNothing : Obligations.IgnoredWritesAndNopChangeNothing := by
  intro s addr wdata ignored i hi
  have hexec : exec i s = .next (edge s) := by
    simp only [List.mem_cons, List.not_mem_nil, or_false] at hi
    rcases hi with rfl | rfl | rfl | rfl | rfl | rfl | rfl | rfl | rfl <;> rfl
  refine ⟨hexec, fun hidle => ?_⟩
  rw [hexec, edge_of_idle hidle]

/-! ## Commands -/

/-- Settles O23: the three reserved operations are one rejection (R109). -/
theorem reservedCodesAreRejected : Obligations.ReservedCodesAreRejected := by
  intro s addr ignored code i hi
  simp only [List.mem_cons, List.not_mem_nil, or_false] at hi
  rcases hi with rfl | rfl | rfl <;> rfl

/-- While busy a start command is rejected (R107, R108). -/
theorem startCommand_of_busy {s : State} (hbusy : s.phase ≠ .idle) (m : Mode) :
    startCommand m s = .next (setRej (edge s)) :=
  writeLocked_of_busy hbusy (acceptCommand m)

/-- In IDLE a start command with an attempt to make clears the last outcome and begins attempt 1 (R110, R130). -/
theorem startCommand_of_idle {s : State} (hidle : s.phase = .idle) {m : Mode} (hm : m = .decode ∨ s.retryBound ≠ 0#8) :
    startCommand m s = .next (beginAttempt 1#8 (clearOutcome { clocked s with mode := m })) := by
  refine (writeLocked_of_idle hidle (acceptCommand m)).trans (congrArg _ ?_)
  rcases acceptCommand_cases m (clocked s) with ⟨hacquire, hbound, _⟩ | ⟨_, e⟩
  · subst hacquire
    exact absurd hbound (hm.resolve_left nofun)
  · exact e

/-- Settles O20: the state that a start command leaves, written out. -/
theorem acquireAcceptedOnlyWhenIdle : Obligations.AcquireAcceptedOnlyWhenIdle := fun _ _ _ =>
  ⟨fun hidle hbound => startCommand_of_idle hidle (.inr hbound), fun hbusy => startCommand_of_busy hbusy .acquire⟩

/-- Settles O22: DECODE begins attempt 1 whatever RETRY_BOUND holds. -/
theorem decodeAcceptedOnlyWhenIdle : Obligations.DecodeAcceptedOnlyWhenIdle := fun _ _ _ =>
  ⟨fun hidle => startCommand_of_idle hidle (.inl rfl), fun hbusy => startCommand_of_busy hbusy .decode⟩

/-- What acceptance leaves depends on the parameters alone: it writes every other element that a command reads (R110, R130,
R136). -/
theorem sameCommand_accepted {a b : State} (h : SameParams a b) (m : Mode) :
    SameCommand (beginAttempt 1#8 (clearOutcome { clocked a with mode := m }))
      (beginAttempt 1#8 (clearOutcome { clocked b with mode := m })) :=
  ⟨h, rfl, rfl, rfl, nofun, rfl, rfl, rfl, rfl, rfl, rfl, rfl, rfl, rfl⟩

/-- Settles O60: both states accept, and acceptance forgets all but the parameters. -/
theorem acceptanceForgetsThePast : Obligations.AcceptanceForgetsThePast := by
  intro a b addr ignored ha hb hparams
  refine ⟨⟨_, _, startCommand_of_idle ha (.inl rfl), startCommand_of_idle hb (.inl rfl),
    sameCommand_accepted hparams .decode⟩, fun hbound => ?_⟩
  have ⟨_, _, _, _, hretry, _⟩ := hparams
  exact ⟨_, _, startCommand_of_idle ha (.inr hbound), startCommand_of_idle hb (.inr (hretry ▸ hbound)),
    sameCommand_accepted hparams .acquire⟩

end Sys2Proof.Machine
end

