-- ==== Sys2Proof/Proofs/StartHandshake.lean ====
section
/-! One cycle of the start handshake, whatever the host presents (R131 to R134), and which phase can follow which
(R135). -/

namespace Sys2Proof

open Machine

/-! ## One cycle -/

/-- While a command runs the cycle is the edge but for IRQ_EN, DONE, REJ and the value read (R74 c). -/
theorem step_of_busy {s : State} (hr : s.pins.rstN = true) (hbusy : s.phase ≠ .idle) :
    ∃ t, step s = .next t ∧
      t = { edge s with irqEn := t.irqEn, done := t.done, rej := t.rej, rdata := t.rdata } := by
  obtain ⟨t, h⟩ := step_next hr
  exact ⟨t, h, (cycleKind_busy hbusy (cycleKind_of_step hr h)).1⟩

/-- The edge of a timed phase: the exit action once its ticks are counted, else a tick or the clock alone (R131). -/
theorem clocked_timedCycle (n : BitVec 24) (exit : State → State) (tick : Bool) (s : State) :
    clocked (timedCycle n exit tick s) =
      if n ≤ s.timer then clocked (exit { s with timer := 0#24 })
      else if tick = true then { clocked s with timer := s.timer + 1#24 }
      else clocked s := by
  rw [timedCycle, apply_ite clocked, apply_ite clocked]
  rfl

/-- Settles O33: the edge is the clock over the timed phase, whose exit drives the line High. -/
theorem startLowCycle : Obligations.StartLowCycle := by
  intro s hr p
  obtain ⟨t, h, e⟩ := step_of_busy hr (by simp [p])
  refine ⟨t, h, e, ?_⟩
  rw [edge, sequencer_startLow _ _ _ p]
  exact clocked_timedCycle s.tStartLow exitStartLow s.pins.tickI s

/-- A length of 16 bits is compared with the 24-bit timer by its number (R133). -/
theorem setWidth_le_iff_toNat_le (n : BitVec 16) (m : BitVec 24) : n.setWidth 24 ≤ m ↔ n.toNat ≤ m.toNat := by
  rw [BitVec.le_def, BitVec.toNat_setWidth_of_le (by decide)]

/-- Settles O34: the edge is the clock over the timed phase, whose exit releases the line and enters capture. -/
theorem startHighCycle : Obligations.StartHighCycle := by
  intro s hr p
  obtain ⟨t, h, e⟩ := step_of_busy hr (by simp [p])
  refine ⟨t, h, e, ?_⟩
  rw [edge, sequencer_startHigh _ _ _ p]
  simp only [← setWidth_le_iff_toNat_le]
  exact clocked_timedCycle (s.tStartHigh.setWidth 24) enterCapture s.pins.tickI s

/-! ## The order of the phases (R135) -/

/-- Every transition of the sequencer is one that exists, and VALIDATE is always left (R190). -/
theorem transition_legal {tick sample : Bool} {s u : State} (h : SequencerTo tick sample s u) :
    legalTransition s.phase u.phase = true := by
  cases h <;> simp [legalTransition, exitStartLow, Machine.commit, assembleBit, *]

/-- Acceptance begins an attempt, or stays in IDLE with the command exhausted (R110, R213). -/
theorem acceptCommand_legal (m : Mode) (s : State) : legalTransition .idle (acceptCommand m s).phase = true := by
  rcases acceptCommand_cases m s with ⟨_, _, e⟩ | ⟨_, e⟩ <;> rw [e] <;> rfl

/-- Settles O40: a cycle of the host leaves the edge's phase, or starts in IDLE and keeps it or accepts a command. -/
theorem onlyLegalTransitions : Obligations.OnlyLegalTransitions := by
  intro s t hr h
  rcases cycleKind_of_step hr h with ⟨e, _⟩ | ⟨hidle, e⟩ | ⟨hidle, m, e⟩ <;> rw [e]
  · have hlegal := transition_legal (sequencerTo s.pins.tickI s.sync2 s)
    exact hlegal
  · rw [clocked_phase, hidle]
    rfl
  · rw [hidle]
    exact acceptCommand_legal m (clocked s)

end Sys2Proof
end

