-- ==== Sys2Proof/Proofs/TimedRuns.lean ====
section
/-! Runs over listed inputs: what a number of cycles does, from what each of them does. START_LOW counts its strobes
(R131, R132), and a phase that waits for a strobe waits as long as none comes (R232). -/

namespace Sys2Proof

open Machine

/-- The induction over a run, packaged once: if `R 0` holds before it and each of `k` steps, at the inputs that are
left, leads from `R j` to `R (j + 1)`, then the run ends in a state with `R k`. -/
theorem run_induction {k : Nat} {R : Nat → State → Prop} {s : State} (h0 : R 0 s)
    (hstep : ∀ j < k, ∀ u, u.inputs = s.inputs.drop j → R j u → ∃ v, step u = .next v ∧ R (j + 1) v) :
    ∃ t, Host.Core.run core k s = .next t ∧ R k t := by
  induction k generalizing R s with
  | zero => exact ⟨s, rfl, h0⟩
  | succ k ih =>
    obtain ⟨v, hv, h1⟩ := hstep 0 (by omega) s rfl h0
    rw [run_succ hv]
    refine ih (R := fun j => R (j + 1)) h1 fun j hj u hu => hstep (j + 1) (by omega) u ?_
    rw [hu, step_inputs hv, List.drop_tail]

/-- The pins of a cycle in a run are its listed input. -/
theorem pins_of_inputs_drop {u : State} {ins : List Pins} {j : Nat} (hj : j < ins.length) (h : u.inputs = ins.drop j) :
    u.pins = ins[j] :=
  pins_of_inputs (h.trans (List.drop_eq_getElem_cons hj))

/-! ## START_LOW -/

/-- The number of cycles with a tick strobe. -/
abbrev strobes (ins : List Pins) : Nat := (ins.filter (·.tickI)).length

/-- One cycle more adds its strobe. -/
theorem strobes_take_succ {ins : List Pins} {j : Nat} (hj : j < ins.length) :
    strobes (ins.take (j + 1)) = strobes (ins.take j) + ins[j].tickI.toNat := by
  rw [List.take_succ_eq_append_getElem hj, strobes, List.filter_append, List.length_append]
  cases h : ins[j].tickI <;> simp [h]

/-- The state `u`, `j` cycles after the start of START_LOW in `s`: still there, with their strobes counted. -/
abbrev HeldLow (s : State) (j : Nat) (u : State) : Prop :=
  u.phase = .startLow ∧ u.dqOe = s.dqOe ∧ u.dqO = s.dqO ∧ u.tStartLow = s.tStartLow ∧
    u.timer.toNat = strobes (s.inputs.take j)

/-- With a tick left, a cycle of START_LOW counts its strobe and changes nothing else of the hold. -/
theorem startLow_holds {s : State} (hr : s.pins.rstN = true) (p : s.phase = .startLow) (hlt : s.timer < s.tStartLow) :
    ∃ t, step s = .next t ∧ t.phase = .startLow ∧ t.dqOe = s.dqOe ∧ t.dqO = s.dqO ∧ t.tStartLow = s.tStartLow ∧
      t.timer.toNat = s.timer.toNat + s.pins.tickI.toNat := by
  obtain ⟨t, h, e, hedge⟩ := startLowCycle s hr p
  rw [if_neg (BitVec.not_le.mpr hlt)] at hedge
  rw [hedge] at e
  refine ⟨t, h, ?_⟩
  rw [e]
  cases s.pins.tickI
  · exact ⟨p, rfl, rfl, rfl, rfl⟩
  · exact ⟨p, rfl, rfl, rfl, toNat_add_one_of_lt hlt⟩

/-- The cycle after the first `j`, with a tick left, goes on with the hold. -/
theorem heldLow_step {s u : State} {j : Nat} (hj : j < s.inputs.length) (hr : s.inputs[j].rstN = true)
    (hlt : strobes (s.inputs.take j) < s.tStartLow.toNat) (hu : u.inputs = s.inputs.drop j) (h : HeldLow s j u) :
    ∃ v, step u = .next v ∧ HeldLow s (j + 1) v := by
  obtain ⟨p, hoe, ho, hlen, htimer⟩ := h
  have hpins := pins_of_inputs_drop hj hu
  have hleft : u.timer < u.tStartLow := by rwa [BitVec.lt_def, hlen, htimer]
  obtain ⟨v, hv, p', hoe', ho', hlen', htimer'⟩ := startLow_holds (hpins ▸ hr) p hleft
  refine ⟨v, hv, p', hoe'.trans hoe, ho'.trans ho, hlen'.trans hlen, ?_⟩
  rw [htimer', htimer, hpins, strobes_take_succ hj]

/-- With all its ticks counted START_LOW is left (R132). -/
theorem startLow_leaves {s : State} (hr : s.pins.rstN = true) (p : s.phase = .startLow) (hle : s.tStartLow ≤ s.timer) :
    ∃ t, step s = .next t ∧ t.phase = .startHigh ∧ t.timer = 0#24 := by
  obtain ⟨t, h, e, hedge⟩ := startLowCycle s hr p
  rw [hedge, if_pos hle] at e
  exact ⟨t, h, by rw [e], by rw [e]⟩

/-- Settles O42, by induction over the run: each cycle counts its strobe while fewer than T_START_LOW have come. -/
theorem startLowHoldsExactly : Obligations.StartLowHoldsExactly := by
  intro s k p hzero hk hr hfew
  obtain ⟨t, hrun, p', hoe, ho, hlen, htimer⟩ := run_induction (k := k) (R := HeldLow s)
    ⟨p, rfl, rfl, rfl, by rw [hzero]; rfl⟩
    fun j hj u hu => heldLow_step (by omega) (hr _ (List.getElem_mem _)) (hfew j hj) hu
  refine ⟨t, hrun, p', hoe, ho, htimer, fun hall hr' => startLow_leaves hr' p' ?_⟩
  rw [BitVec.le_def, hlen, htimer, strobes, hall]

/-! ## Waiting for a strobe -/

/-- The block waits for a strobe: a timed phase has ticks left, or capture is before the window limit (R131, R150). -/
abbrev WaitsForStrobe (s : State) : Prop :=
  s.phase = .startLow ∧ s.timer < s.tStartLow ∨
    s.phase = .startHigh ∧ s.timer < s.tStartHigh.setWidth 24 ∨
    s.phase = .settle ∧ s.timer < s.tSettle ∨ s.phase = .capture ∧ s.win < s.maxWindows

theorem timedCycle_waits {n : BitVec 24} {s : State} (exit : State → State) (h : s.timer < n) :
    timedCycle n exit false s = s := if_neg (BitVec.not_le.mpr h)

theorem captureCycle_waits {s : State} (sample : Bool) (h : s.win < s.maxWindows) :
    captureCycle false sample s = s := if_neg (BitVec.not_le.mpr h)

/-- Without a strobe a sequencer that waits for one writes nothing. -/
theorem sequencer_waits {s : State} (sample : Bool) (h : WaitsForStrobe s) : sequencer false sample s = s := by
  rcases h with ⟨p, h⟩ | ⟨p, h⟩ | ⟨p, h⟩ | ⟨p, h⟩
  · rw [sequencer_startLow _ _ _ p, timedCycle_waits _ h]
  · rw [sequencer_startHigh _ _ _ p, timedCycle_waits _ h]
  · rw [sequencer_settle _ _ _ p, timedCycle_waits _ h]
  · rw [sequencer_capture _ _ _ p, captureCycle_waits _ h]

theorem sameCommand_refl (s : State) : SameCommand s s :=
  ⟨⟨rfl, rfl, rfl, rfl, rfl, rfl⟩, rfl, rfl, rfl, fun _ => ⟨rfl, rfl, rfl⟩,
    rfl, rfl, rfl, rfl, rfl, rfl, rfl, rfl, rfl⟩

/-- Whether the block waits depends on the point of its command alone. -/
theorem waitsForStrobe_of_sameCommand {a b : State} (h : SameCommand a b) (hw : WaitsForStrobe a) :
    WaitsForStrobe b := by
  obtain ⟨⟨hlow, hhigh, hmax, _, _, hsettle⟩, hphase, _, htimer, hwindow, _⟩ := h
  rw [WaitsForStrobe, ← hphase, ← htimer, ← hlow, ← hhigh, ← hsettle, ← hmax]
  refine hw.imp_right (Or.imp_right (Or.imp_right fun ⟨p, h⟩ => ⟨p, ?_⟩))
  obtain ⟨hwin, _⟩ := hwindow p
  exact hwin ▸ h

/-- A cycle without a strobe leaves a block that waits for one at the same point of its command, whatever the host
presents. -/
theorem sameCommand_step_of_waits {s u : State} (h : SameCommand s u) (hw : WaitsForStrobe u)
    (hr : u.pins.rstN = true) (htick : u.pins.tickI = false) : ∃ v, step u = .next v ∧ SameCommand s v := by
  have hbusy : u.phase ≠ .idle := by rcases hw with ⟨p, _⟩ | ⟨p, _⟩ | ⟨p, _⟩ | ⟨p, _⟩ <;> simp [p]
  obtain ⟨v, hv, e⟩ := step_of_busy hr hbusy
  rw [edge, htick, sequencer_waits u.sync2 hw] at e
  exact ⟨v, hv, e ▸ h⟩

/-- Settles O45, by induction over the run: at the same point of the command the block still waits. -/
theorem noTicksNoEnd : Obligations.NoTicksNoEnd := by
  intro s n hn hquiet hw
  have hstep : ∀ j < n, ∀ u, u.inputs = s.inputs.drop j → SameCommand s u →
      ∃ v, step u = .next v ∧ SameCommand s v := by
    intro j hj u hu h
    have hpins := pins_of_inputs_drop (by omega) hu
    obtain ⟨hr, htick⟩ := hquiet u.pins (hpins ▸ List.getElem_mem _)
    exact sameCommand_step_of_waits h (waitsForStrobe_of_sameCommand h hw) hr htick
  obtain ⟨t, hrun, ht⟩ := run_induction (k := n) (R := fun _ => SameCommand s) (sameCommand_refl s) hstep
  have ⟨_, hphase, _⟩ := ht
  exact ⟨t, hrun, hphase.symm, ht⟩

end Sys2Proof
end

