-- ==== Sys2Proof/Proofs/CaptureCycle.lean ====
section
/-! One cycle of capture, branch by branch, and a window from its samples to its duration (R150 to R152, R170 to R172). -/

namespace Sys2Proof

open Machine

/-! ## The capture loop, one equation per branch -/

/-- The 8-bit count reaches the cap with the sample after 254 (R151). -/
theorem add_one_eq_cap_iff (n : BitVec 8) : n + 1#8 = Config.tickCap ↔ n = 254#8 := by
  rw [Config.tickCap]
  bv_omega

/-- A sample at the window's level is the 255th, which ends capture, or one more (R151, R153). -/
theorem sameLevel_eq (s : State) :
    sameLevel s = if s.cnt = 254#8 then { s with cnt := 255#8, capHit := true, phase := .validate }
      else { s with cnt := s.cnt + 1#8 } :=
  if_congr (add_one_eq_cap_iff s.cnt) rfl rfl

theorem captureCycle_limit {s : State} (tick sample : Bool) (h : s.maxWindows ≤ s.win) :
    captureCycle tick sample s = { s with phase := .validate } := if_pos h

theorem captureCycle_same {s : State} {sample : Bool} (h : s.win < s.maxWindows) (hs : sample = s.prev) :
    captureCycle true sample s = sameLevel s :=
  (if_neg (BitVec.not_le.mpr h)).trans (if_pos hs)

theorem captureCycle_change {s : State} {sample : Bool} (h : s.win < s.maxWindows) (hs : sample ≠ s.prev) :
    captureCycle true sample s = levelChange sample s :=
  (if_neg (BitVec.not_le.mpr h)).trans (if_neg hs)

/-- Settles O35: the window limit, no tick, or a sample at the window's level. -/
theorem captureCycleWithoutLevelChange : Obligations.CaptureCycleWithoutLevelChange := by
  intro s hr p _ hsame
  obtain ⟨t, h, e⟩ := step_of_busy hr (by simp [p])
  refine ⟨t, h, e, ?_⟩
  rw [edge, sequencer_capture _ _ _ p]
  by_cases hlimit : s.maxWindows ≤ s.win
  · rw [captureCycle_limit _ _ hlimit, if_pos hlimit]
    rfl
  rw [if_neg hlimit]
  have hwin := BitVec.not_le.mp hlimit
  cases htick : s.pins.tickI
  · rw [captureCycle_waits _ hwin, if_pos rfl]
  · rw [captureCycle_same hwin (hsame hwin htick), sameLevel_eq, apply_ite clocked]
    rfl

/-! ## The bit of a window -/

/-- A bit shifted in doubles the byte and adds the bit; what leaves the byte is dropped (R172). -/
theorem shiftInto_toNat (byte : Byte) (b : Bool) :
    (shiftInto byte b).toNat = (2 * byte.toNat + b.toNat) % 256 := by
  rw [shiftInto_eq_shiftConcat, BitVec.toNat_shiftConcat, Nat.shiftLeft_eq, Nat.mul_comm]

/-- The byte that takes the next bit is number `nbits / 8` (R172). -/
theorem toNat_shiftRight_three (nbits : BitVec 6) : (nbits >>> 3).toNat = nbits.toNat / 8 := by
  rw [BitVec.toNat_ushiftRight, Nat.shiftRight_eq_div_pow]

/-- The decision as a number: 1 exactly when the duration is above the threshold (R171). -/
theorem bitOf_toNat (d threshold : BitVec 8) :
    (bitOf d threshold).toNat = if d.toNat > threshold.toNat then 1 else 0 :=
  Bool.cond_decide _ _ _

/-- Below 40 bits the assembled bit goes into byte `nbits / 8` and no other (R172). -/
theorem assembleBit_byte {s : State} (h40 : s.nbits.toNat < 40) (b : Bool) {j : Nat} (hj : j < 5) :
    ((assembleBit b s).fb.byte j).toNat =
      if j = s.nbits.toNat / 8 then (2 * (s.fb.byte j).toNat + b.toNat) % 256 else (s.fb.byte j).toNat := by
  have hbyte := byte_shiftIn s.fb ⟨s.nbits.toNat / 8, by omega⟩ ⟨j, hj⟩ b
  simp only [Fin.mk.injEq] at hbyte
  rw [assembleBit, toNat_shiftRight_three, hbyte, apply_ite BitVec.toNat, shiftInto_toNat]

/-- A window that ends writes the frame and the bit count, and nothing else (R172). -/
theorem classify_frame (k d : BitVec 8) (s : State) :
    classify k d s = { s with nbits := (classify k d s).nbits, fb := (classify k d s).fb } := by
  rcases classify_cases k d s with ⟨_, e⟩ | ⟨_, e⟩ <;> rw [e]
  rfl

/-- Settles O36: the level change classifies the window and opens the next. -/
theorem captureCycleWithLevelChange : Obligations.CaptureCycleWithLevelChange := by
  intro s hr p hwin htick hsample
  obtain ⟨t, h, e⟩ := step_of_busy hr (by simp [p])
  have hedge : edge s = clocked (levelChange s.sync2 s) := by
    rw [edge, sequencer_capture _ _ _ p, htick, captureCycle_change hwin hsample]
  refine ⟨t, h, e, ?_, ?_⟩
  · rw [hedge, levelChange, classify_frame]
    rfl
  · rw [hedge]
    simp only [clocked_nbits, clocked_fb, levelChange]
    rcases classify_cases s.win s.cnt s with ⟨helig, e⟩ | ⟨helig, e⟩ <;> rw [e]
    · have hnums := (eligible_iff _ _).mp helig
      have ⟨_, _, h40⟩ := hnums
      rw [if_pos hnums, ← bitOf_toNat]
      exact ⟨rfl, fun j hj => assembleBit_byte h40 _ hj⟩
    · rw [if_neg (mt (eligible_iff _ _).mpr (by simp [helig]))]
      exact ⟨rfl, rfl⟩

/-! ## A window, sample by sample -/

/-- Samples at the window's level, below the cap, are counted (R151). -/
theorem captureCycle_replicate (d : Nat) {s : State} (hwin : s.win < s.maxWindows) (hcap : s.cnt.toNat + d ≤ 254) :
    (List.replicate d s.prev).foldl (fun u b => captureCycle true b u) s =
      { s with cnt := s.cnt + BitVec.ofNat 8 d } := by
  induction d generalizing s with
  | zero => simp
  | succ d ih =>
    have hbelow : s.cnt ≠ 254#8 := by bv_omega
    have hcnt : (s.cnt + 1#8).toNat + d ≤ 254 := by bv_omega
    have hfirst : captureCycle true s.prev s = { s with cnt := s.cnt + 1#8 } := by
      rw [captureCycle_same hwin rfl, sameLevel_eq, if_neg hbelow]
    rw [List.replicate_succ, List.foldl_cons, hfirst]
    refine (ih (s := { s with cnt := s.cnt + 1#8 }) hwin hcnt).trans ?_
    rw [BitVec.add_assoc, ← BitVec.ofNat_add, Nat.add_comm]

/-- The classifier takes the duration as its argument and leaves the count alone. -/
theorem classify_cnt (k d c : BitVec 8) (s : State) :
    classify k d { s with cnt := c } = { classify k d s with cnt := c } := by
  unfold classify
  split <;> rfl

/-- Settles O43: the samples at the window's level count up to the duration that the level change classifies. -/
theorem windowDurationIsItsRunLength : Obligations.WindowDurationIsItsRunLength := by
  intro s d _ hwin hcap
  rw [List.foldl_append, captureCycle_replicate d hwin hcap, List.foldl_cons, List.foldl_nil]
  refine (captureCycle_change (s := { s with cnt := s.cnt + BitVec.ofNat 8 d }) hwin (Bool.not_ne_self _)).trans ?_
  rw [levelChange, classify_cnt]

end Sys2Proof
end

