-- ==== Sys2Proof/Proofs/CyclesLeft.lean ====
section
/-! The bound on the cycles left falls at every transition of the sequencer but the waiting ones (R156, R232, R272). -/

namespace Sys2Proof

open Machine

section
variable {tick sample : Bool} {s u : State}

/-! ## The bound, by phase and by mode -/

theorem cyclesAfterAttempt_acquire (hm : s.mode = .acquire) :
    cyclesAfterAttempt s =
      settleCycles s + (s.retryBound.toNat - s.attempts.toNat) * (attemptCycles s + settleCycles s) := by
  simp [cyclesAfterAttempt, hm]

theorem cyclesLeft_idle (p : s.phase = .idle) : cyclesLeft s = 0 := by simp [cyclesLeft, p]
theorem cyclesLeft_startLow (p : s.phase = .startLow) :
    cyclesLeft s = (s.tStartLow.toNat - s.timer.toNat + 1) + (s.tStartHigh.toNat + 1) +
      (254 * s.maxWindows.toNat + 2) + 1 + cyclesAfterAttempt s := by simp [cyclesLeft, p]
theorem cyclesLeft_startHigh (p : s.phase = .startHigh) :
    cyclesLeft s = (s.tStartHigh.toNat - s.timer.toNat + 1) + (254 * s.maxWindows.toNat + 2) + 1 +
      cyclesAfterAttempt s := by simp [cyclesLeft, p]
theorem cyclesLeft_capture (p : s.phase = .capture) :
    cyclesLeft s = captureTicksLeft s + 2 + cyclesAfterAttempt s := by simp [cyclesLeft, p]
theorem cyclesLeft_validate (p : s.phase = .validate) : cyclesLeft s = 1 + cyclesAfterAttempt s := by
  simp [cyclesLeft, p]
theorem cyclesLeft_settle (p : s.phase = .settle) :
    cyclesLeft s = (s.tSettle.toNat - s.timer.toNat + 1) +
      (s.retryBound.toNat - s.attempts.toNat) * (attemptCycles s + settleCycles s) := by simp [cyclesLeft, p]

/-- While a command runs at least one cycle is left. -/
theorem cyclesLeft_pos (hbusy : s.phase ≠ .idle) : 0 < cyclesLeft s := by
  unfold cyclesLeft
  split
  · contradiction
  all_goals omega

/-! ## The parts of an attempt -/

/-- Within an attempt what follows it stays the same, so the bound falls with the attempt's own part. -/
theorem cyclesLeft_lt_of_attempt {n m : Nat} (hu : cyclesLeft u = n + cyclesAfterAttempt u)
    (hs : cyclesLeft s = m + cyclesAfterAttempt s) (hafter : cyclesAfterAttempt u = cyclesAfterAttempt s)
    (hlt : n < m) : cyclesLeft u < cyclesLeft s := by
  rw [hu, hs, hafter]
  exact Nat.add_lt_add_right hlt _

/-- A strobe counted in a timed phase leaves one tick less (R131). -/
theorem ticksLeft_lt {w : Nat} {x n : BitVec w} (h : x < n) : n.toNat - (x + 1#w).toNat < n.toNat - x.toNat := by
  have hx : x.toNat < n.toNat := h
  rw [toNat_add_one_of_lt h]
  omega

/-- A sample below the cap leaves one tick less for capture (R151). -/
theorem captureTicksLeft_same (hcnt : s.cnt < 254#8) (hwin : s.win < s.maxWindows) :
    captureTicksLeft { s with cnt := s.cnt + 1#8 } < captureTicksLeft s := by
  have hc : s.cnt.toNat < 254 := hcnt
  have hw : s.win.toNat < s.maxWindows.toNat := hwin
  simp only [captureTicksLeft, toNat_add_one_of_lt hcnt]
  omega

/-- The window that a level change ends had counted at most 254 samples, so capture has a tick less left (R151, R152). -/
theorem captureTicksLeft_nextWindow (hcnt : s.cnt ≤ 254#8) (hwin : s.win < s.maxWindows)
    (hmax : u.maxWindows = s.maxWindows) (hnext : u.win = s.win + 1#8) (hfirst : u.cnt = 1#8) :
    captureTicksLeft u < captureTicksLeft s := by
  have hc : s.cnt.toNat ≤ 254 := hcnt
  have hw : s.win.toNat < s.maxWindows.toNat := hwin
  simp only [captureTicksLeft, hmax, hnext, hfirst, toNat_add_one_of_lt hwin, BitVec.toNat_ofNat]
  omega

/-! ## The next attempt -/

/-- An attempt that begins has all its cycles left. -/
theorem cyclesLeft_beginAttempt (k : BitVec 8) :
    cyclesLeft (beginAttempt k s) = attemptCycles s + cyclesAfterAttempt (beginAttempt k s) := by
  rw [cyclesLeft_startLow rfl, attemptCycles]
  simp only [beginAttempt_tStartLow, beginAttempt_tStartHigh, beginAttempt_maxWindows, beginAttempt_timer,
    BitVec.toNat_ofNat, Nat.zero_mod]
  omega

/-- The next attempt and its settle delay are one of those that were left (R215). -/
theorem cyclesLeft_nextAttempt (hm : s.mode = .acquire) (hlt : s.attempts < s.retryBound) :
    cyclesLeft (beginAttempt (s.attempts + 1#8) s) =
      (s.retryBound.toNat - s.attempts.toNat) * (attemptCycles s + settleCycles s) := by
  have hn : s.attempts.toNat < s.retryBound.toNat := hlt
  have hleft : s.retryBound.toNat - s.attempts.toNat = s.retryBound.toNat - (s.attempts.toNat + 1) + 1 := by omega
  have hafter : cyclesAfterAttempt (beginAttempt (s.attempts + 1#8) s) = settleCycles s +
      (s.retryBound.toNat - (s.attempts.toNat + 1)) * (attemptCycles s + settleCycles s) := by
    rw [← toNat_add_one_of_lt hlt]
    exact cyclesAfterAttempt_acquire hm
  rw [cyclesLeft_beginAttempt, hafter, hleft, Nat.add_one_mul]
  omega

/-- Only an ACQUIRE settles (R211). -/
theorem mode_of_settle (hs : AttemptsInv s) (p : s.phase = .settle) : s.mode = .acquire := by
  obtain ⟨hdecode, _⟩ := hs (by simp [p])
  cases hm : s.mode
  · exact absurd p (hdecode hm).2
  · rfl

/-! ## Every transition -/

/-- A transition of a running command waits, without a strobe, or brings the end nearer. -/
theorem transition_nearer (h : SequencerTo tick sample s u) (hwindow : WindowInv s) (hattempts : AttemptsInv s)
    (hbusy : s.phase ≠ .idle) : (tick = false ∧ u = s) ∨ cyclesLeft u < cyclesLeft s := by
  cases h
  case idle p => exact absurd p hbusy
  case startLowWait htick | startHighWait htick | captureWait htick | settleWait htick => exact .inl ⟨htick, rfl⟩
  case decodeFails | commit | settleEnd =>
    refine .inr ?_
    rw [cyclesLeft_idle rfl]
    exact cyclesLeft_pos hbusy
  all_goals refine .inr ?_
  case startLowExit p _ =>
    refine cyclesLeft_lt_of_attempt (cyclesLeft_startHigh rfl) (cyclesLeft_startLow p) rfl ?_
    simp only [exitStartLow, BitVec.toNat_ofNat]
    omega
  case startLowTick p hlt _ =>
    have hticks := ticksLeft_lt hlt
    refine cyclesLeft_lt_of_attempt (cyclesLeft_startLow p) (cyclesLeft_startLow p) rfl ?_
    dsimp only
    omega
  case startHighExit p _ =>
    refine cyclesLeft_lt_of_attempt (cyclesLeft_capture rfl) (cyclesLeft_startHigh p) rfl ?_
    simp only [captureTicksLeft, enterCapture_maxWindows, enterCapture_win, enterCapture_cnt, BitVec.toNat_ofNat]
    omega
  case startHighTick p hlt _ =>
    have hticks := ticksLeft_lt hlt
    rw [BitVec.toNat_setWidth_of_le (by decide)] at hticks
    refine cyclesLeft_lt_of_attempt (cyclesLeft_startHigh p) (cyclesLeft_startHigh p) rfl ?_
    dsimp only
    omega
  case captureLimit p _ | captureCap p _ _ _ _ =>
    exact cyclesLeft_lt_of_attempt (cyclesLeft_validate rfl) (cyclesLeft_capture p) rfl (by omega)
  case captureSame p hwin _ _ hcap =>
    obtain ⟨hcnt, _⟩ := hwindow p
    refine cyclesLeft_lt_of_attempt (cyclesLeft_capture p) (cyclesLeft_capture p) rfl (Nat.add_lt_add_right ?_ 2)
    exact captureTicksLeft_same (by bv_omega) hwin
  case captureBit p hwin _ _ _ | captureNoBit p hwin _ _ _ =>
    obtain ⟨hcnt, _⟩ := hwindow p
    refine cyclesLeft_lt_of_attempt (cyclesLeft_capture p) (cyclesLeft_capture p) rfl (Nat.add_lt_add_right ?_ 2)
    exact captureTicksLeft_nextWindow hcnt hwin rfl rfl rfl
  case attemptFails p hm _ =>
    rw [cyclesLeft_settle rfl, cyclesLeft_validate p, cyclesAfterAttempt_acquire hm]
    simp only [settleCycles, attemptCycles, BitVec.toNat_ofNat]
    omega
  case settleNext p _ hlt =>
    have hnext := cyclesLeft_nextAttempt (s := { s with timer := 0#24 }) (mode_of_settle hattempts p) hlt
    rw [hnext, cyclesLeft_settle p]
    simp only [settleCycles, attemptCycles]
    omega
  case settleTick p hlt _ =>
    have hticks := ticksLeft_lt hlt
    rw [cyclesLeft_settle p, cyclesLeft_settle (s := { s with timer := s.timer + 1#24 }) p]
    exact Nat.add_lt_add_right (Nat.add_lt_add_right hticks 1) _

end

/-- What the host and the clock write does not enter the bound. -/
theorem cyclesLeft_of_busy {s t : State} (hbusy : s.phase ≠ .idle) (h : CycleKind s t) :
    cyclesLeft t = cyclesLeft (sequencer s.pins.tickI s.sync2 s) := by
  rw [(cycleKind_busy hbusy h).1]
  rfl

/-- Settles O46: only a transition that waits without a strobe leaves the bound as it is. -/
theorem ticksBringTheEndNearer : Obligations.TicksBringTheEndNearer := by
  intro s t hinv hr hbusy h
  obtain ⟨_, _, hwindow, _, _, _, hattempts, _⟩ := hinv
  rw [cyclesLeft_of_busy hbusy (cycleKind_of_step hr h)]
  rcases transition_nearer (sequencerTo s.pins.tickI s.sync2 s) hwindow hattempts hbusy with ⟨htick, e⟩ | hlt
  · rw [e, htick]
    exact ⟨Nat.le_refl _, nofun⟩
  · exact ⟨hlt.le, fun _ => hlt⟩

end Sys2Proof
end

