-- ==== Sys2Proof/Proofs/FrameAssembly.lean ====
section
/-! The frame bit by bit: where each assembled bit stands after any number of them, and so after all 40 (R172, R174). -/

namespace Sys2Proof

open Machine

/-! ## One bit -/

/-- The bit shifted in is the lowest of the byte (R172). -/
@[simp] theorem shiftInto_getLsbD_zero (byte : Byte) (b : Bool) : (shiftInto byte b).getLsbD 0 = b := by
  simp [shiftInto_eq_shiftConcat]

/-- The bits a byte held move up by one place, and what leaves the byte is dropped (R172). -/
theorem shiftInto_getLsbD_succ (byte : Byte) (b : Bool) {i : Nat} (hi : i + 1 < 8) :
    (shiftInto byte b).getLsbD (i + 1) = byte.getLsbD i := by
  rw [shiftInto_eq_shiftConcat, BitVec.getLsbD_eq_getElem hi, BitVec.getElem_shiftConcat_succ,
    BitVec.getLsbD_eq_getElem (by omega)]

/-- Below 40 bits the assembled bit is shifted into byte `nbits / 8` and no other (R172): `assembleBit_byte` as an
equation of bytes. -/
theorem assembleBit_byte_eq {s : State} (h40 : s.nbits.toNat < 40) (b : Bool) {j : Nat} (hj : j < 5) :
    (assembleBit b s).fb.byte j =
      if j = s.nbits.toNat / 8 then shiftInto (s.fb.byte j) b else s.fb.byte j := by
  apply BitVec.eq_of_toNat_eq
  rw [assembleBit_byte h40 b hj, apply_ite BitVec.toNat, shiftInto_toNat]

/-- Below 40 bits every assembled bit is counted (R172). -/
theorem assembleBit_nbits_toNat {s : State} (h40 : s.nbits.toNat < 40) (b : Bool) :
    (assembleBit b s).nbits.toNat = s.nbits.toNat + 1 :=
  toNat_add_one_of_lt (n := 40#6) h40

/-! ## Any number of bits -/

/-- The frame holds the sequence `bits`: the count is its length, and bit `8j + k` of it has as many places below it in
byte `j` as bits of that byte came after it, up to bit `8j + 7` (R172, R174). -/
def HoldsBits (bits : List Bool) (s : State) : Prop :=
  s.nbits.toNat = bits.length ∧
    ∀ j < 5, ∀ k i, 8 * j + k + i + 1 = min bits.length (8 * j + 8) →
      (s.fb.byte j).getLsbD i = bits.getD (8 * j + k) false

/-- Before the first bit there is nothing to hold, whatever the bytes are. -/
theorem holdsBits_nil {s : State} (h : s.nbits = 0#6) : HoldsBits [] s := by
  refine ⟨by simp [h], fun j _ k i hplace => ?_⟩
  rw [List.length_nil] at hplace
  omega

/-- One more bit becomes the lowest of its byte; those before it in the byte move up, and the bytes filled earlier stay
(R172). -/
theorem holdsBits_assembleBit {bits : List Bool} {s : State} (hs : HoldsBits bits s) (h40 : bits.length < 40)
    (b : Bool) : HoldsBits (bits ++ [b]) (assembleBit b s) := by
  obtain ⟨hcount, hheld⟩ := hs
  rw [← hcount] at h40
  refine ⟨by rw [assembleBit_nbits_toNat h40, hcount, List.length_append, List.length_singleton],
    fun j hj k i hplace => ?_⟩
  rw [List.length_append, List.length_singleton] at hplace
  rw [assembleBit_byte_eq h40 b hj, hcount]
  by_cases hbyte : j = bits.length / 8
  · rw [if_pos hbyte]
    cases i with
    | zero =>
      have hlast : 8 * j + k = bits.length := by omega
      rw [shiftInto_getLsbD_zero, hlast, List.getD_append_right _ _ _ _ le_rfl, Nat.sub_self]
      rfl
    | succ i =>
      rw [shiftInto_getLsbD_succ _ _ (by omega), List.getD_append _ _ _ _ (by omega)]
      exact hheld j hj k i (by omega)
  · rw [if_neg hbyte, List.getD_append _ _ _ _ (by omega)]
    exact hheld j hj k i (by omega)

/-- Up to 40 bits assembled one after the other are all held. -/
theorem holdsBits_foldl {s : State} (h : s.nbits = 0#6) (bits : List Bool) (h40 : bits.length ≤ 40) :
    HoldsBits bits (bits.foldl (fun u b => assembleBit b u) s) := by
  induction bits using List.reverseRecOn with
  | nil => exact holdsBits_nil h
  | append_singleton bits b ih =>
    rw [List.length_append, List.length_singleton] at h40
    rw [List.foldl_concat]
    exact holdsBits_assembleBit (ih (by omega)) (by omega) b

/-- Settles O44: of 40 bits each byte has taken 8, so bit `8j + k` has `7 - k` places below it. The 8 shifts drop what a
byte held before, so the empty frame is not needed. -/
theorem frameHoldsFortyBitsMsbFirst : Obligations.FrameHoldsFortyBitsMsbFirst := by
  intro s bits hnbits _ hlength
  obtain ⟨hcount, hheld⟩ := holdsBits_foldl hnbits bits hlength.le
  rw [hlength] at hcount hheld
  exact ⟨BitVec.eq_of_toNat_eq hcount, fun j hj k hk => hheld j hj k (7 - k) (by omega)⟩

end Sys2Proof
end

