-- ==== Sys2Proof/Proofs/Validate.lean ====
section
/-! VALIDATE and the ends of a command: the edges that complete one (R236), a failed attempt (R191, R196), and a success
with its conversion into tenths (R193 to R195). -/

namespace Sys2Proof

open Machine

/-! ## Completion -/

/-- Settles O28: an edge completes the command or leaves DONE alone, and DONE is set exactly where it completes. -/
theorem completionEdges : Obligations.CompletionEdges := by
  intro s
  have hset := setsDone_iff_atCompletion s
  refine ⟨hset, fun h => ?_, fun h => by rw [edge_done, h, Bool.false_or]⟩
  rcases transition_completes_or_not (sequencerTo s.pins.tickI s.sync2 s) with ⟨_, hend⟩ | ⟨hnot, _⟩
  · exact hend
  · exact absurd (hset.mp h) hnot

/-! ## A failed attempt -/

/-- Without 40 bits and a valid checksum the attempt fails, INCOMPLETE before CHECKSUM_MISMATCH (R190, R191). -/
theorem validateCycle_of_invalid {s : State} (h : s.nbits < 40#6 ∨ s.fb.b4 ≠ checksum s.fb) :
    validateCycle s = failAttempt (if s.nbits < 40#6 then .incomplete else .checksumMismatch) s := by
  rcases validateCycle_cases s with ⟨hshort, e⟩ | ⟨h40, _, e⟩ | ⟨h40, hsum, _⟩
  · rw [e, if_pos hshort]
  · rw [e, if_neg (BitVec.not_lt.mpr h40)]
  · exact absurd h (not_or.mpr ⟨BitVec.not_lt.mpr h40, not_not.mpr hsum⟩)

/-- Settles O37: the edge is the clock over the failed attempt, which ends a DECODE and lets an ACQUIRE settle. -/
theorem validateFailure : Obligations.ValidateFailure := by
  intro s hr p hinvalid
  obtain ⟨t, h, e⟩ := step_of_busy hr (by simp [p])
  refine ⟨t, h, e, ?_⟩
  rw [ne_eq, ← eq_checksum_iff] at hinvalid
  rw [edge, sequencer_validate _ _ _ p, validateCycle_of_invalid hinvalid]
  cases hm : s.mode
  · rw [failAttempt_decode _ _ hm, apply_ite FailKind.err]
    rfl
  · rw [failAttempt_acquire _ _ hm]
    rfl

/-! ## A success, and its conversion -/

/-- With 40 bits and a valid checksum the frame is committed (R195). -/
theorem validateCycle_of_valid {s : State} (h40 : 40#6 ≤ s.nbits) (hsum : s.fb.b4 = checksum s.fb) :
    validateCycle s = commit s :=
  (if_neg (BitVec.not_lt.mpr h40)).trans (if_neg (not_not.mpr hsum))

/-- The humidity in tenths is exact: two bytes cannot exceed 16 bits (R193). -/
theorem humidityX10_toNat (f : Frame) : (humidityX10 f).toNat = 10 * f.b0.toNat + f.b1.toNat := by
  have h0 := f.b0.isLt
  have h1 := f.b1.isLt
  rw [humidityX10, BitVec.toNat_ofNat, Nat.mod_eq_of_lt (by omega)]

/-- The magnitude leaves the sign bit of byte 2 out (R194). -/
theorem temperatureMagnitude_eq (f : Frame) :
    temperatureMagnitude f = 10 * (f.b2.toNat % 128) + f.b3.toNat := by
  rw [temperatureMagnitude, BitVec.extractLsb'_toNat, Nat.shiftRight_zero]

/-- The sign is bit 7 of byte 2 (R194). -/
theorem getLsbD_seven_iff (byte : Byte) : byte.getLsbD 7 = true ↔ byte.toNat ≥ 128 := by
  rw [← BitVec.msb_eq_getLsbD_last (x := byte), BitVec.msb_eq_decide, decide_eq_true_iff]

/-- The temperature in tenths is exact: sign and magnitude fit 16 bits of two's complement (R194). -/
theorem temperatureX10_toInt (f : Frame) :
    (temperatureX10 f).toInt =
      (if f.b2.toNat ≥ 128 then -1 else 1) * (10 * (f.b2.toNat % 128 : Nat) + f.b3.toNat : Int) := by
  have hmagnitude := temperatureMagnitude_eq f
  have h3 := f.b3.isLt
  rw [temperatureX10]
  simp only [getLsbD_seven_iff]
  by_cases hsign : f.b2.toNat ≥ 128
  · rw [if_pos hsign, if_pos hsign, BitVec.toInt_ofInt_eq_self (by omega) (by omega) (by omega)]
    omega
  · rw [if_neg hsign, if_neg hsign, ← BitVec.ofInt_natCast,
      BitVec.toInt_ofInt_eq_self (by omega) (by omega) (by omega)]
    omega

/-- Settles O38: the edge is the clock over the commit, and both conversions are exact. -/
theorem validateSuccess : Obligations.ValidateSuccess := by
  intro s hr p h40 hsum
  obtain ⟨t, h, e⟩ := step_of_busy hr (by simp [p])
  have hedge : edge s = clocked (commit s) := by
    rw [edge, sequencer_validate _ _ _ p, validateCycle_of_valid h40 ((eq_checksum_iff _ _).mpr hsum)]
  have hhum : t.humX10 = humidityX10 s.fb := by rw [e, hedge]; rfl
  have htemp : t.tempX10 = temperatureX10 s.fb := by rw [e, hedge]; rfl
  refine ⟨t, h, e, ?_, ?_, ?_⟩
  · rw [hedge, hhum, htemp]
    rfl
  · rw [hhum, humidityX10_toNat]
  · rw [htemp, temperatureX10_toInt]

end Sys2Proof
end

