-- ==== Sys2Proof/Proofs/RetrySequencer.lean ====
section
/-! The retry sequencer: one cycle of SETTLE (R211, R212), an ACQUIRE that may make no attempt (R213), and the bound on a
command from its acceptance (R215, R272). -/

namespace Sys2Proof

open Machine

/-! ## SETTLE -/

/-- The edge that leaves SETTLE: the clock over the next attempt, or over the end of the command (R212). -/
theorem clocked_exitSettle (s : State) :
    clocked (exitSettle s) =
      if s.attempts < s.retryBound then clocked (beginAttempt (s.attempts + 1#8) s)
      else clocked (completeCommand .exhausted s) :=
  apply_ite clocked _ _ _

/-- Settles O39: the edge is the clock over the timed phase, whose exit begins the next attempt or ends the command. -/
theorem settleCycle : Obligations.SettleCycle := by
  intro s hr p
  obtain ⟨t, h, e⟩ := step_of_busy hr (by simp [p])
  refine ⟨t, h, e, ?_⟩
  rw [edge, sequencer_settle _ _ _ p, clocked_timedCycle, clocked_exitSettle]
  rfl

/-! ## No attempt to make -/

/-- A command exhausted in IDLE, at its own acceptance, leaves the phase as it is (R213). -/
theorem exhaustAtOnce_of_idle {s : State} (hidle : s.phase = .idle) :
    exhaustAtOnce s =
      { s with attempts := 0#8, nbits := 0#6, capHit := false, err := .exhausted, done := true } := by
  rw [exhaustAtOnce, completeCommand, ← hidle]

/-- In IDLE an ACQUIRE with RETRY_BOUND = 0 is exhausted at its acceptance (R110, R213). -/
theorem startCommand_of_bound_zero {s : State} (hidle : s.phase = .idle) (hbound : s.retryBound = 0#8) :
    startCommand .acquire s = .next (exhaustAtOnce (clearOutcome { clocked s with mode := .acquire })) :=
  (writeLocked_of_idle hidle (acceptCommand .acquire)).trans (congrArg _ (if_pos ⟨rfl, hbound⟩))

/-- Settles O21: the completion at acceptance, which finds the phase IDLE and leaves it so. -/
theorem acquireWithBoundZeroExhaustsAtOnce : Obligations.AcquireWithBoundZeroExhaustsAtOnce := by
  intro s _ _ hidle hbound
  refine (startCommand_of_bound_zero hidle hbound).trans (congrArg _ ?_)
  exact exhaustAtOnce_of_idle (s := clearOutcome { clocked s with mode := .acquire }) hidle

/-! ## The bound from acceptance -/

/-- Nothing follows the attempt of a DECODE (R215). -/
theorem cyclesAfterAttempt_decode {s : State} (hm : s.mode = .decode) : cyclesAfterAttempt s = 0 := by
  simp [cyclesAfterAttempt, hm]

/-- At its acceptance a DECODE has its one attempt left (R272). -/
theorem cyclesLeft_accepted_decode (s : State) :
    cyclesLeft (beginAttempt 1#8 (clearOutcome { clocked s with mode := .decode })) = attemptCycles s := by
  rw [cyclesLeft_beginAttempt, cyclesAfterAttempt_decode rfl]
  rfl

/-- At its acceptance an ACQUIRE has RETRY_BOUND attempts and settle delays left: attempt 1 is the next after none (R215,
R272). -/
theorem cyclesLeft_accepted_acquire {s : State} (hbound : s.retryBound ≠ 0#8) :
    cyclesLeft (beginAttempt 1#8 (clearOutcome { clocked s with mode := .acquire })) =
      s.retryBound.toNat * (attemptCycles s + settleCycles s) :=
  cyclesLeft_nextAttempt (s := clearOutcome { clocked s with mode := .acquire, attempts := 0#8 }) rfl
    ((BitVec.pos_iff_ne_zero _).mpr hbound)

/-- Settles O48: a command accepted with an attempt to make has all of them left; without one it ends at once. -/
theorem commandBoundFromAcceptance : Obligations.CommandBoundFromAcceptance := by
  intro s addr ignored hidle
  refine ⟨⟨_, startCommand_of_idle hidle (.inl rfl), (cyclesLeft_accepted_decode s).le⟩, ?_⟩
  by_cases hbound : s.retryBound = 0#8
  · refine ⟨_, startCommand_of_bound_zero hidle hbound, ?_⟩
    rw [cyclesLeft_idle rfl]
    exact Nat.zero_le _
  · refine ⟨_, startCommand_of_idle hidle (.inr hbound), ?_⟩
    rw [cyclesLeft_accepted_acquire hbound, attemptCycles, settleCycles]
    exact Nat.mul_le_mul_left _ (by omega)

end Sys2Proof
end

