-- ==== Sys2Proof/Proofs/InterruptLine.lean ====
section
/-! The interrupt line (R233, R234): DONE at the edges that complete a command and at the others, and what the line shows
after an operation's cycle. -/

namespace Sys2Proof

open Machine

/-! ## DONE at an edge -/

/-- A command that completes is running (R236). -/
theorem busy_of_atCompletion {s : State} (h : AtCompletion s) : s.phase ≠ .idle := by
  rcases h with ⟨p, _⟩ | ⟨p, _⟩ <;> simp [p]

theorem setsDone_of_not_atCompletion {s : State} (h : ¬ AtCompletion s) : setsDone s = false :=
  Bool.eq_false_iff.mpr (mt (setsDone_iff_atCompletion s).mp h)

theorem edge_done_of_atCompletion {s : State} (h : AtCompletion s) : (edge s).done = true := by
  rw [edge_done, (setsDone_iff_atCompletion s).mpr h, Bool.true_or]

theorem edge_done_of_not_atCompletion {s : State} (h : ¬ AtCompletion s) : (edge s).done = s.done := by
  rw [edge_done, setsDone_of_not_atCompletion h, Bool.false_or]

/-- A STATUS write with bit 1 lowers DONE unless the sequencer sets it (R74 b, R103). -/
theorem clearFlags_done_of_bit {wdata : Word} (h : wdata.getLsbD 1 = true) (u : State) :
    (clearFlags wdata false u).done = false := by
  simp only [clearFlags, h, Bool.not_false, Bool.and_true, Bool.not_true, Bool.and_false]

/-! ## The line -/

theorem irqO_of_done {s : State} (h : s.done = true) : irqO s = s.irqEn := by
  rw [irqO, h, Bool.and_true]

theorem irqO_of_not_done {s : State} (h : s.done = false) : irqO s = false := by
  rw [irqO, h, Bool.and_false]

/-- A rejection sets REJ, and the line follows the edge's DONE alone (R233). -/
abbrev RejectedWithoutInterrupt (s t : State) : Prop :=
  t.rej = true ∧ (¬ AtCompletion s → irqO t = irqO s) ∧ (AtCompletion s → irqO t = s.irqEn)

theorem setRej_edge_rejectedWithoutInterrupt (s : State) : RejectedWithoutInterrupt s (setRej (edge s)) := by
  refine ⟨rfl, fun hnot => ?_, fun hat => ?_⟩
  · rw [irqO, setRej_irqEn, setRej_done, edge_irqEn, edge_done_of_not_atCompletion hnot, irqO]
  · exact (irqO_of_done (s := setRej (edge s)) (edge_done_of_atCompletion hat)).trans (edge_irqEn s)

/-- While a command runs the start commands and the parameter writes are rejections (R104, R107, R108). -/
theorem exec_of_busy {i : Instr} {s : State} {addr : Offset} {wdata : Word} {ignored : BitVec 28}
    (hbusy : s.phase ≠ .idle)
    (hi : i ∈ [Instr.cmdAcquire addr ignored, .cmdDecode addr ignored, .wrParamTStartLow addr wdata,
      .wrParamTStartHigh addr wdata, .wrParamMaxWindows addr wdata, .wrParamBitThreshold addr wdata,
      .wrParamRetryBound addr wdata, .wrParamTSettle addr wdata]) : exec i s = .next (setRej (edge s)) := by
  rcases List.mem_cons.mp hi with rfl | hi
  · exact startCommand_of_busy hbusy .acquire
  rcases List.mem_cons.mp hi with rfl | hi
  · exact startCommand_of_busy hbusy .decode
  · exact (wrParamStoresOnlyWhenIdle s addr wdata).2 hbusy i hi

/-- In IDLE an accepted DECODE lowers the line, and an ACQUIRE does unless it completes at once (R110, R213, R234). -/
theorem irqO_accepted {s : State} (addr : Offset) (ignored : BitVec 28) (hidle : s.phase = .idle) :
    (∃ t, exec (.cmdDecode addr ignored) s = .next t ∧ irqO t = false) ∧
    (∃ t, exec (.cmdAcquire addr ignored) s = .next t ∧ irqO t = (s.irqEn && decide (s.retryBound = 0#8))) := by
  refine ⟨⟨_, startCommand_of_idle hidle (.inl rfl), irqO_of_not_done rfl⟩, ?_⟩
  by_cases hbound : s.retryBound = 0#8
  · refine ⟨_, startCommand_of_bound_zero hidle hbound, ?_⟩
    rw [decide_eq_true hbound, Bool.and_true]
    exact irqO_of_done rfl
  · refine ⟨_, startCommand_of_idle hidle (.inr hbound), ?_⟩
    rw [decide_eq_false hbound, Bool.and_false]
    exact irqO_of_not_done rfl

/-- Settles O31: at a completion DONE is 1 whatever the host presents; elsewhere each operation's DONE and IRQ_EN are
known. The completion clause holds without OutcomeInv. -/
theorem interruptLine : Obligations.InterruptLine := by
  refine ⟨fun s => Bool.and_eq_true_iff, fun s _ hr hat => ?completion, fun s addr wdata hnot hbit => ?clear,
    fun s addr wdata => ⟨_, exec_wrCtrl s addr wdata, fun hoff => ?irqOff, fun hdone hon => ?irqOn⟩,
    fun s addr ignored hidle => irqO_accepted addr ignored hidle,
    fun s addr wdata ignored code => ⟨fun i hi => ?reserved, fun hbusy i hi => ?busy⟩⟩
  case completion =>
    obtain ⟨t, h⟩ := step_next hr
    exact ⟨t, h, irqO_of_done (done_of_atCompletion (busy_of_atCompletion hat) (cycleKind_of_step hr h) hat)⟩
  case clear =>
    refine ⟨_, exec_wrStatus s addr wdata, irqO_of_not_done ?_⟩
    rw [setsDone_of_not_atCompletion hnot]
    exact clearFlags_done_of_bit hbit (edge s)
  case irqOff => rw [irqO, hoff, Bool.false_and]
  case irqOn => rw [irqO, hon, edge_done_of_done hdone, Bool.and_true]
  case reserved =>
    exact ⟨_, reservedCodesAreRejected s addr ignored code i hi, setRej_edge_rejectedWithoutInterrupt s⟩
  case busy => exact ⟨_, exec_of_busy hbusy hi, setRej_edge_rejectedWithoutInterrupt s⟩

end Sys2Proof
end

