-- ==== Sys2Proof/Proofs/CommandCompletion.lean ====
section
/-! Every command completes, given tick strobes (R232, R272): each cycle ends it or brings the end nearer. -/

namespace Sys2Proof

open Machine

/-- With a strobe a cycle of a running command ends it, or it goes on with fewer cycles left. -/
theorem ends_or_nearer {s t : State} (hinv : BlockInv s) (hbusy : s.phase ≠ .idle) (hr : s.pins.rstN = true)
    (htick : s.pins.tickI = true) (h : step s = .next t) :
    CommandEnded t ∨ (t.phase ≠ .idle ∧ cyclesLeft t < cyclesLeft s) := by
  obtain ⟨t', h', hphase, hcompletes⟩ := completionBeatsTheHostWrite s hr hbusy
  obtain rfl : t = t' := Host.Outcome.next.inj (h.symm.trans h')
  by_cases hend : t.phase = .idle
  · obtain ⟨hdone, _⟩ := hcompletes (hphase.mp hend)
    exact .inl ⟨hend, hdone⟩
  · obtain ⟨_, hnearer⟩ := ticksBringTheEndNearer s t hinv hr hbusy h
    exact .inr ⟨hend, hnearer htick⟩

/-- Settles O47, by strong induction on the cycles left: the first cycle ends the command or leaves fewer. -/
theorem everyCommandCompletes : Obligations.EveryCommandCompletes := by
  intro s
  induction hn : cyclesLeft s using Nat.strong_induction_on generalizing s with
  | h n ih =>
    subst hn
    intro hinv hbusy hlength hins
    have hpos := cyclesLeft_pos hbusy
    obtain ⟨p, ps, hlist⟩ := List.exists_cons_of_length_pos (hpos.trans_le hlength)
    obtain ⟨hr, htick⟩ := hins p (by simp [hlist])
    rw [← pins_of_inputs hlist] at hr htick
    obtain ⟨t, h⟩ := step_next hr
    rcases ends_or_nearer hinv hbusy hr htick h with hend | ⟨hbusy', hless⟩
    · exact ⟨1, hpos, t, run_succ h, hend⟩
    · have htail : t.inputs = ps := by rw [step_inputs h, hlist, List.tail_cons]
      rw [hlist, List.length_cons] at hlength
      obtain ⟨k, hk, u, hrun, hend⟩ := ih _ hless t rfl (blockInv_step hinv h) hbusy' (by rw [htail]; omega)
        fun q hq => hins q (by rw [hlist, ← htail]; exact List.mem_cons_of_mem p hq)
      exact ⟨k + 1, by omega, u, (run_succ h).trans hrun, hend⟩

end Sys2Proof
end
